-- ==== Sys2Proof/Word.lean ====
section
/-! DEFINITION. The word types of the block: bytes of a store (00_scope R12), the 96-bit command word
(30_encoding R53) and the 32-bit scalars, which are the operands `A`, `B` and the latches `R0`, `R1`, `EINFO`
(00_scope R9, `XW = 32`). All three number their bits from 0, the least significant (00_scope R10). -/

namespace Sys2Proof

/-- A byte of a BitString store or of DIN/DOUT (00_scope R12). -/
abbrev Byte := BitVec 8

/-- A command word `CMD[95:0]` (30_encoding R53; `CMDW = 96`, 00_scope R9). -/
abbrev CmdWord := BitVec 96

/-- A 32-bit scalar: operand `A` or `B`, or the content of a latch (00_scope R9, `XW = 32`). -/
abbrev Scalar := BitVec 32

end Sys2Proof
end

