-- ==== Sys2Proof/Syntax.lean ====
section
/-! DEFINITION. The twelve commands (30_encoding R57), one constructor per row of spec/opcode_table.json. A
constructor's arguments are the fields its row uses, in the order of the assembler syntax (30_encoding R63). -/

namespace Sys2Proof

/-- A BitString register number, `B0` to `B15` (10_state R20). -/
abbrev BReg := Fin 16

/-- A command of the block. `w` is the header parameter `W` (field `w`), `cnt` the chunk count; the scalars are the
raw 32-bit operands, read signed by the meanings (30_encoding R55). -/
inductive Instr where
  /-- `LOAD Bd, nbits, nbytes` (40_bitbuffer R71). -/
  | load (bd : BReg) (nbits nbytes : Scalar)
  /-- `STORE Bs` (40_bitbuffer R73). -/
  | store (bs1 : BReg)
  /-- `LEN Bs` (40_bitbuffer R74). -/
  | len (bs1 : BReg)
  /-- `SLICE Bd, Bs, start, end` (40_bitbuffer R77). -/
  | slice (bd bs1 : BReg) (start stop : Scalar)
  /-- `CONCAT Bd, Bs, Bt` (40_bitbuffer R80). -/
  | concat (bd bs1 bs2 : BReg)
  /-- `EQUAL Bs, Bt` (40_bitbuffer R82). -/
  | equal (bs1 bs2 : BReg)
  /-- `MKHDR Bd, length, W=n` (41_header_codec R93). -/
  | mkhdr (bd : BReg) (length : Scalar) (w : BitVec 4)
  /-- `RDHDR Bs, offset, W=n` (41_header_codec R96). -/
  | rdhdr (bs1 : BReg) (offset : Scalar) (w : BitVec 4)
  /-- `ENCCH Bd, Bs, cnt, W=n` (42_framing R102). -/
  | encch (bd bs1 : BReg) (cnt : BitVec 8) (w : BitVec 4)
  /-- `DECCH Bd, Bs, cnt, W=n` (42_framing R106). -/
  | decch (bd bs1 : BReg) (cnt : BitVec 8) (w : BitVec 4)
  /-- `ENCLS Bd, Bs, cnt, W=n` (42_framing R108). -/
  | encls (bd bs1 : BReg) (cnt : BitVec 8) (w : BitVec 4)
  /-- `DECLS Bd, Bs, W=n` (42_framing R110). -/
  | decls (bd bs1 : BReg) (w : BitVec 4)
  deriving DecidableEq, Repr

end Sys2Proof
end

