-- ==== Sys2Proof/WellFormed.lean ====
section
/-! DEFINITION. Which terms of `Instr` are legal commands: the conditions of 30_encoding R58, which the types of the
fields cannot express. -/

namespace Sys2Proof

/-- The conditions of 30_encoding R58: `W` is 1 to 15 in every codec command, and the register range that `cnt`
names (the sources of ENCCH and ENCLS, the destinations of DECCH) ends at `B15` or before. -/
def Instr.wellFormed : Instr → Bool
  | .load _ _ _ => true
  | .store _ => true
  | .len _ => true
  | .slice _ _ _ _ => true
  | .concat _ _ _ => true
  | .equal _ _ => true
  | .mkhdr _ _ w => w != 0
  | .rdhdr _ _ w => w != 0
  | .encch _ bs1 cnt w => w != 0 && decide (bs1.val + cnt.toNat ≤ 16)
  | .decch bd _ cnt w => w != 0 && decide (bd.val + cnt.toNat ≤ 16)
  | .encls _ bs1 cnt w => w != 0 && decide (bs1.val + cnt.toNat ≤ 16)
  | .decls _ _ w => w != 0

end Sys2Proof
end

