-- ==== Sys2Proof/Decode.lean ====
section
/-! DEFINITION. The command word's fields, the opcode table, the total decoder that rejects by name, the encoder, the
serialised forms of a word (30_encoding R53 to R61, 20_memory R36) and the pseudo-commands (R64 to R66). -/

namespace Sys2Proof

/-- The eight fields of the one format (30_encoding R54, R55). -/
structure Fields where
  opcode : BitVec 8
  bd : BitVec 4
  bs1 : BitVec 4
  bs2 : BitVec 4
  w : BitVec 4
  cnt : BitVec 8
  a : Scalar
  b : Scalar
  deriving DecidableEq, Repr

/-- The fields cut out of a word: `opcode` is `CMD[95:88]`, and so on down to `B`, which is `CMD[31:0]`
(30_encoding R54, R55). -/
def Fields.ofWord (c : CmdWord) : Fields where
  opcode := c.extractLsb' 88 8
  bd := c.extractLsb' 84 4
  bs1 := c.extractLsb' 80 4
  bs2 := c.extractLsb' 76 4
  w := c.extractLsb' 72 4
  cnt := c.extractLsb' 64 8
  a := c.extractLsb' 32 32
  b := c.extractLsb' 0 32

/-- The word whose fields, from the most significant bit down, are those given (30_encoding R54). -/
def Fields.toWord (f : Fields) : CmdWord :=
  f.opcode ++ (f.bd ++ (f.bs1 ++ (f.bs2 ++ (f.w ++ (f.cnt ++ (f.a ++ f.b))))))

/-- A 4-bit field as a register number (30_encoding R55). -/
def regOfField (v : BitVec 4) : BReg := ⟨v.toNat, v.isLt⟩

/-- A register number as a 4-bit field. -/
def fieldOfReg (r : BReg) : BitVec 4 := BitVec.ofNat 4 r.val

/-- The twelve rows of 30_encoding R57 by name. -/
inductive Op where
  | load | store | len | slice | concat | equal | mkhdr | rdhdr | encch | decch | encls | decls
  deriving DecidableEq, Repr

/-- One row of 30_encoding R57: a word `c` selects it when `c & mask = pattern`. -/
structure OpcodeRow where
  op : Op
  opcode : BitVec 8
  mask : CmdWord
  pattern : CmdWord
  deriving DecidableEq, Repr

/-- The opcode map (30_encoding R57, spec/opcode_table.json), row for row. -/
def opcodeTable : List OpcodeRow := [
  ⟨.load,   0x01#8, 0xFF0FFFFF0000000000000000#96, 0x010000000000000000000000#96⟩,
  ⟨.store,  0x02#8, 0xFFF0FFFFFFFFFFFFFFFFFFFF#96, 0x020000000000000000000000#96⟩,
  ⟨.len,    0x03#8, 0xFFF0FFFFFFFFFFFFFFFFFFFF#96, 0x030000000000000000000000#96⟩,
  ⟨.slice,  0x04#8, 0xFF00FFFF0000000000000000#96, 0x040000000000000000000000#96⟩,
  ⟨.concat, 0x05#8, 0xFF000FFFFFFFFFFFFFFFFFFF#96, 0x050000000000000000000000#96⟩,
  ⟨.equal,  0x06#8, 0xFFF00FFFFFFFFFFFFFFFFFFF#96, 0x060000000000000000000000#96⟩,
  ⟨.mkhdr,  0x10#8, 0xFF0FF0FF00000000FFFFFFFF#96, 0x100000000000000000000000#96⟩,
  ⟨.rdhdr,  0x11#8, 0xFFF0F0FF00000000FFFFFFFF#96, 0x110000000000000000000000#96⟩,
  ⟨.encch,  0x20#8, 0xFF00F000FFFFFFFFFFFFFFFF#96, 0x200000000000000000000000#96⟩,
  ⟨.decch,  0x21#8, 0xFF00F000FFFFFFFFFFFFFFFF#96, 0x210000000000000000000000#96⟩,
  ⟨.encls,  0x22#8, 0xFF00F000FFFFFFFFFFFFFFFF#96, 0x220000000000000000000000#96⟩,
  ⟨.decls,  0x23#8, 0xFF00F0FFFFFFFFFFFFFFFFFF#96, 0x230000000000000000000000#96⟩]

/-- The row with a given opcode; none for the reserved opcodes of 30_encoding R59. -/
def rowOf (opcode : BitVec 8) : Option OpcodeRow :=
  opcodeTable.find? fun row => row.opcode == opcode

/-- Why a word is no command (30_encoding R60, R68). In the block all of them are IllegalCommand. -/
inductive Illegal where
  /-- The opcode is reserved (R59). -/
  | reservedOpcode
  /-- A field the command does not use is not zero (R56). -/
  | reservedField
  /-- `w = 0` in a codec command (R58). -/
  | zeroWidth
  /-- `bs1 + cnt > 16` in ENCCH or ENCLS (R58). -/
  | sourceRange
  /-- `bd + cnt > 16` in DECCH (R58). -/
  | destinationRange
  /-- Only of `decodeBytes`: the serialised word is not 12 bytes long (R36, R53; log entry 16). -/
  | wrongLength
  deriving DecidableEq, Repr

/-- The condition `w != 0` of 30_encoding R58. -/
def needWidth (w : BitVec 4) (rest : Except Illegal Instr) : Except Illegal Instr :=
  if w = 0 then .error .zeroWidth else rest

/-- The condition that a register range starting at `base` ends at `B15` or before (30_encoding R58). -/
def needRange (why : Illegal) (base : BitVec 4) (cnt : BitVec 8) (rest : Except Illegal Instr) :
    Except Illegal Instr :=
  if base.toNat + cnt.toNat ≤ 16 then rest else .error why

/-- Steps (3) and (4) of 30_encoding R61: the row's conditions of R58, then the command with its operands. -/
def operandsOf (op : Op) (f : Fields) : Except Illegal Instr :=
  match op with
  | .load => .ok (.load (regOfField f.bd) f.a f.b)
  | .store => .ok (.store (regOfField f.bs1))
  | .len => .ok (.len (regOfField f.bs1))
  | .slice => .ok (.slice (regOfField f.bd) (regOfField f.bs1) f.a f.b)
  | .concat => .ok (.concat (regOfField f.bd) (regOfField f.bs1) (regOfField f.bs2))
  | .equal => .ok (.equal (regOfField f.bs1) (regOfField f.bs2))
  | .mkhdr => needWidth f.w (.ok (.mkhdr (regOfField f.bd) f.a f.w))
  | .rdhdr => needWidth f.w (.ok (.rdhdr (regOfField f.bs1) f.a f.w))
  | .encch => needWidth f.w (needRange .sourceRange f.bs1 f.cnt
      (.ok (.encch (regOfField f.bd) (regOfField f.bs1) f.cnt f.w)))
  | .decch => needWidth f.w (needRange .destinationRange f.bd f.cnt
      (.ok (.decch (regOfField f.bd) (regOfField f.bs1) f.cnt f.w)))
  | .encls => needWidth f.w (needRange .sourceRange f.bs1 f.cnt
      (.ok (.encls (regOfField f.bd) (regOfField f.bs1) f.cnt f.w)))
  | .decls => needWidth f.w (.ok (.decls (regOfField f.bd) (regOfField f.bs1) f.w))

/-- The decoding procedure of 30_encoding R61, total on all `2^96` words (R60). -/
def decode (c : CmdWord) : Except Illegal Instr :=
  match rowOf (Fields.ofWord c).opcode with
  | none => .error .reservedOpcode
  | some row =>
    if c &&& row.mask = row.pattern then operandsOf row.op (Fields.ofWord c) else .error .reservedField

/-- The 12 bytes of a serialised word, most significant byte first (20_memory R36). -/
def bytesOfWord (c : CmdWord) : List Byte :=
  (List.range 12).map fun i => c.extractLsb' (8 * (11 - i)) 8

/-- The word of 12 serialised bytes, most significant byte first (20_memory R36); none for another number of bytes. -/
def wordOfBytes (bytes : List Byte) : Option CmdWord :=
  if bytes.length = 12 then
    some (bytes.foldl (fun acc byte => (acc <<< 8) ||| byte.setWidth 96) 0)
  else none

/-- The word sent as three 32-bit pieces: `CMD[95:64]`, `CMD[63:32]`, `CMD[31:0]` (30_encoding R53). -/
def wordOfPieces (word0 word1 word2 : BitVec 32) : CmdWord := word0 ++ (word1 ++ word2)

/-- The decoder on any bytes: exactly 12 of them, then `decode`. -/
def decodeBytes (bytes : List Byte) : Except Illegal Instr :=
  match wordOfBytes bytes with
  | none => .error .wrongLength
  | some c => decode c

/-- The fields of a command, unused ones zero (30_encoding R56, R57). -/
def fieldsOf : Instr → Fields
  | .load bd a b => ⟨0x01, fieldOfReg bd, 0, 0, 0, 0, a, b⟩
  | .store bs1 => ⟨0x02, 0, fieldOfReg bs1, 0, 0, 0, 0, 0⟩
  | .len bs1 => ⟨0x03, 0, fieldOfReg bs1, 0, 0, 0, 0, 0⟩
  | .slice bd bs1 a b => ⟨0x04, fieldOfReg bd, fieldOfReg bs1, 0, 0, 0, a, b⟩
  | .concat bd bs1 bs2 => ⟨0x05, fieldOfReg bd, fieldOfReg bs1, fieldOfReg bs2, 0, 0, 0, 0⟩
  | .equal bs1 bs2 => ⟨0x06, 0, fieldOfReg bs1, fieldOfReg bs2, 0, 0, 0, 0⟩
  | .mkhdr bd a w => ⟨0x10, fieldOfReg bd, 0, 0, w, 0, a, 0⟩
  | .rdhdr bs1 a w => ⟨0x11, 0, fieldOfReg bs1, 0, w, 0, a, 0⟩
  | .encch bd bs1 cnt w => ⟨0x20, fieldOfReg bd, fieldOfReg bs1, 0, w, cnt, 0, 0⟩
  | .decch bd bs1 cnt w => ⟨0x21, fieldOfReg bd, fieldOfReg bs1, 0, w, cnt, 0, 0⟩
  | .encls bd bs1 cnt w => ⟨0x22, fieldOfReg bd, fieldOfReg bs1, 0, w, cnt, 0, 0⟩
  | .decls bd bs1 w => ⟨0x23, fieldOfReg bd, fieldOfReg bs1, 0, w, 0, 0, 0⟩

/-- The word of a command (30_encoding R54 to R57). -/
def encode (i : Instr) : CmdWord := (fieldsOf i).toWord

/-- The host's name for the decoder: the instruction in the low `nbits` bits of `w`, numbered as the opcode table
numbers them (bit 0 is `CMD[0]`), laid out as bytes the way a host serialises it (20_memory R36). -/
def decodeTableWord (nbits w : Nat) : Option Instr :=
  (decodeBytes (bytesOfWord (BitVec.ofNat 96 (w % 2 ^ nbits)))).toOption

/-- Pseudo-command `CLR Bd` = `LOAD Bd, 0, 0` (30_encoding R64). -/
def pseudoClr (bd : BReg) : Instr := .load bd 0 0

/-- Pseudo-command `MOV Bd, Bs` = `ENCCH Bd, Bs, 1, W=4` (30_encoding R65). -/
def pseudoMov (bd bs1 : BReg) : Instr := .encch bd bs1 1 4

/-- Pseudo-command `REST Bd, Bs` = `DECCH Bd, Bs, 1, W=4` (30_encoding R66). -/
def pseudoRest (bd bs1 : BReg) : Instr := .decch bd bs1 1 4

end Sys2Proof
end

