-- ==== Sys2Proof/Config.lean ====
section
/-! DEFINITION. The block's one open parameter, `MAXBITS` (00_scope R9, 92_eei_decisions D3): every value from 64 to
`2^31 - 1` is possible and nothing in Lean can tell which one it is (log entry 1). -/

namespace Sys2Proof

/-- The free choice behind `MAXBITS`. It has no body: no proof can learn its value. -/
opaque Config.maxBitsFree : Nat

/-- Maps a free number onto the legal values of `MAXBITS`, each of which it reaches
(`64 <= MAXBITS <= 2^31 - 1`, 00_scope R9). -/
def Config.maxBitsOf (n : Nat) : Nat := n % (2 ^ 31 - 64) + 64

/-- `MAXBITS`, the largest `bit_length` a register can hold (00_scope R9). -/
def Config.maxBits : Nat := Config.maxBitsOf Config.maxBitsFree

end Sys2Proof
end

