-- ==== Sys2Proof/Machine/State.lean ====
section
/-! DEFINITION. The machine's state as plain data: the spec's complete state `(B[0..15], R0, R1, STATUS, EINFO)`
(10_state R31) and the ports through which a step gets its command and DIN and gives its response (00_scope R8). -/

namespace Sys2Proof.Machine

/-- A BitString: a byte store and the number of its significant bits (10_state R16). Canonical form (R17, R18) is the
predicate `BitString.Canonical`, an invariant of every register. -/
structure BitString where
  store : List Byte
  len : Nat
  deriving DecidableEq, Repr

/-- `EMPTY`: length 0, empty store (00_scope R13). -/
def BitString.empty : BitString := ⟨[], 0⟩

/-- The error kinds with the subkinds of DecodingError (60_exceptions R116, R117). -/
inductive ErrorKind where
  | rangeError
  | encodingError
  | headerTruncated
  | payloadTruncated
  | trailingGarbage
  | capacityError
  | illegalCommand
  deriving DecidableEq, Repr

/-- `STATUS` as the closed enumeration of its eight legal values (10_state R24, 93 I9); `Status.code` gives the 8 bits
(log entry 7). -/
inductive Status where
  | ok
  | error (kind : ErrorKind)
  deriving DecidableEq, Repr

/-- What the host presents with one command: the word and the bytes of DIN (00_scope R7, 20_memory R40). -/
structure Request where
  word : CmdWord
  din : List Byte
  deriving DecidableEq, Repr

/-- A move of the host (00_scope R7, 70_reset_and_hazards R134). -/
inductive HostMove where
  /-- Present a command and wait for its response. -/
  | command (request : Request)
  /-- Assert the reset input; `cut` is the command that was in progress and is abandoned, if there was one. -/
  | assertReset (cut : Option Request)
  /-- Release the reset input. -/
  | releaseReset
  deriving DecidableEq, Repr

/-- The state. The first five fields are the spec's complete state (10_state R31); the last three are its ports. -/
structure State where
  /-- `B0` to `B15` (10_state R20). -/
  b : Vector BitString 16
  /-- `R0` (10_state R22). -/
  r0 : Scalar
  /-- `R1` (10_state R23). -/
  r1 : Scalar
  /-- `STATUS` (10_state R24). -/
  status : Status
  /-- `EINFO` (10_state R25). -/
  einfo : Scalar
  /-- The reset input, true while it is asserted (70_reset_and_hazards R134, log entry 4). -/
  resetIn : Bool
  /-- The host's moves not yet taken, oldest first; the head is the one at the port (log entry 2). -/
  inputs : List HostMove
  /-- DOUT of the response standing at the port, none when no response stands there (30_encoding R62, log entry 3). -/
  dout : Option (List Byte)
  deriving DecidableEq, Repr

/-- The reset state (10_state R27, R28; 70_reset_and_hazards R135): every register EMPTY, every latch 0, the reset input
released, nothing presented and no response at the port. -/
def State.reset : State where
  b := Vector.replicate 16 BitString.empty
  r0 := 0
  r1 := 0
  status := .ok
  einfo := 0
  resetIn := false
  inputs := []
  dout := none

/-- Reasons for the machine to stop with a fault. There are none: "There is no stuck state, no hang" (00_scope R8);
every error of the block is a result in STATUS and EINFO (60_exceptions R124). -/
inductive Fault where
  deriving DecidableEq, Repr

/-- Reasons for the model to refuse an instruction. -/
inductive Refusal where
  /-- Raised by `exec` for a constructor that has no meaning yet (safe: the model stops where the block goes on). Every
  constructor has its meaning, so no arm raises it. -/
  | notModelled (mnemonic : String)
  deriving DecidableEq, Repr

/-- What a step or a command answers. -/
abbrev Answer := Host.Outcome State Fault Refusal

end Sys2Proof.Machine
end

