-- ==== Sys2Proof/Machine/Bits.lean ====
section
/-! DEFINITION. The BitString functions: the notation of 00_scope R11 to R13 (bits, `mk`, `uint`, `bits_of`, `binstr`),
canonical form (10_state R17, R18), the enforcer `chop` (40_bitbuffer R69), and the contracts of slice, concat and equal
(R75, R78, R81), which are what the commands run. -/

namespace Sys2Proof.Machine

/-- An error met by a function: its kind and the value for EINFO (00_scope R14, "raise"). -/
structure Raise where
  kind : ErrorKind
  info : Nat
  deriving DecidableEq, Repr

/-- `ceil8(n)`, the number of bytes that hold `n` bits (00_scope R11). -/
def ceil8 (n : Nat) : Nat := (n + 7) / 8

/-- Byte `j` of a byte sequence; 0 where the sequence has no such byte (log entry 10). -/
def byteAt (t : List Byte) (j : Nat) : Byte := t.getD j 0

/-- The bit at offset `p` of a byte sequence: byte `p div 8`, weight `2^(7 - p mod 8)` (20_memory R32). -/
def bitAt (t : List Byte) (p : Nat) : Bool := (byteAt t (p / 8)).getLsbD (7 - p % 8)

/-- `bit(x, p)` (00_scope R13, 20_memory R32). -/
def BitString.bit (x : BitString) (p : Nat) : Bool := bitAt x.store p

/-- `bits(x)`: the significant bits, offset 0 first (00_scope R13). -/
def BitString.bits (x : BitString) : List Bool := (List.range x.len).map x.bit

/-- The mask of the significant bits of the last byte of `n` bits (20_memory R33; 0xFF when that byte is full). -/
def keepMask (n : Nat) : Byte := if n % 8 = 0 then 0xFF else 0xFF#8 <<< (8 - n % 8)

/-- The mask of the padding bits of the last byte of `n` bits, for `n mod 8` not 0 (20_memory R33). -/
def padMask (n : Nat) : Byte := 0xFF#8 >>> (n % 8)

/-- Canonical form: exactly `ceil8(len)` bytes (10_state R18), and every padding bit of the last byte zero (R17). -/
abbrev BitString.Canonical (x : BitString) : Prop :=
  x.store.length = ceil8 x.len ∧ (x.len % 8 ≠ 0 → byteAt x.store (ceil8 x.len - 1) &&& padMask x.len = 0)

/-- The byte whose bits, most significant first, are bits `8 j` to `8 j + 7` of a sequence, absent bits being 0. -/
def packByte (bs : List Bool) (j : Nat) : Byte :=
  (List.range 8).foldl (fun acc i => (acc <<< 1) ||| (if bs.getD (8 * j + i) false then 1#8 else 0#8)) 0#8

/-- `mk(s)`: the canonical BitString with the bits of `s` (00_scope R13). -/
def mk (bs : List Bool) : BitString := ⟨(List.range (ceil8 bs.length)).map (packByte bs), bs.length⟩

/-- `uint(x)`: the unsigned big-endian value of the bits (00_scope R13, 20_memory R34). -/
def uint (x : BitString) : Nat := x.bits.foldl (fun acc bit => 2 * acc + bit.toNat) 0

/-- `bits_of(v, n)`: the low `n` bits of `v`, big-endian; for `v < 2^n` the BitString of length `n` with value `v`
(00_scope R13). -/
def bitsOf (v n : Nat) : BitString := mk ((List.range n).map fun p => v.testBit (n - 1 - p))

/-- `binstr(x)`: one character `0` or `1` per significant bit, offset 0 first (00_scope R13, 20_memory R49). -/
def binstr (x : BitString) : List Char := x.bits.map fun bit => if bit then '1' else '0'

/-- `chop(t, n)`: the first `ceil8(n)` bytes of `t`, the padding bits of the last one zeroed (40_bitbuffer R69). -/
def chop (t : List Byte) (n : Nat) : List Byte :=
  if n = 0 then []
  else t.take (ceil8 n - 1) ++ [byteAt t (ceil8 n - 1) &&& keepMask n]

/-- `x[s:e]`: the bits at offsets `s` to `e - 1`, from offset 0 of a new BitString (00_scope R13). -/
def sub (x : BitString) (s e : Nat) : BitString := mk ((x.bits.drop s).take (e - s))

/-- `slice(x, s, e)`: RangeError when `s < 0`, `e < s` or `e > x.len`, otherwise `x[s:e]` (40_bitbuffer R75). -/
def slice (x : BitString) (s e : Int) : Except Raise BitString :=
  if s < 0 ∨ e < s ∨ e > x.len then .error ⟨.rangeError, 0⟩ else .ok (sub x s.toNat e.toNat)

/-- `concat(x, y) = x ++ y` (40_bitbuffer R78). -/
def concat (x y : BitString) : BitString := mk (x.bits ++ y.bits)

/-- `equal(x, y)`: the lengths match and every significant bit matches (40_bitbuffer R81). -/
def equal (x y : BitString) : Bool := x.len == y.len && x.bits == y.bits

end Sys2Proof.Machine
end

