-- ==== Sys2Proof/Machine/Codec.lean ====
section
/-! DEFINITION. The frame codec as pure functions: the length header (41_header_codec R86 to R94) and the framing of
sequences as chunks or as a list (42_framing R100 to R109). They use `concat`, `sub`, `bitsOf` and `uint` only (R115). -/

namespace Sys2Proof.Machine

/-- `numBits(v)`: the least number of bits that represent `v`, 0 for 0 (41_header_codec R86). -/
def numBits (v : Nat) : Nat := if v = 0 then 0 else Nat.log2 v + 1

/-- `field_width(h)`: the least power of two that is at least `h`, 0 for 0 (41_header_codec R87). The exponent is the
least `j` with `h - 1 < 2^j`. -/
def fieldWidth (h : Nat) : Nat := if h = 0 then 0 else 2 ^ numBits (h - 1)

/-- `size_code` of a field width: 0 for 0, `j + 1` for `2^j` (41_header_codec R88). -/
def sizeCode (fw : Nat) : Nat := if fw = 0 then 0 else Nat.log2 fw + 1

/-- The field width of a `size_code`: the inverse of `sizeCode` (41_header_codec R88). -/
def widthOfCode (sc : Nat) : Nat := if sc = 0 then 0 else 2 ^ (sc - 1)

/-- `create_header(length, W)` (41_header_codec R90); none is EncodingError: a negative length, or a `size_code` that
does not fit `W` bits. -/
def createHeader (length : Int) (W : Nat) : Option BitString :=
  if length < 0 then none
  else
    let fw := fieldWidth (numBits length.toNat)
    let sc := sizeCode fw
    if sc > 2 ^ W - 1 then none else some (concat (bitsOf sc W) (bitsOf length.toNat fw))

/-- `read_header(x, o, W)` (41_header_codec R94): the offsets where the payload begins and where it would end.
HeaderTruncated carries `o`. -/
def readHeader (x : BitString) (o W : Nat) : Except Raise (Nat × Nat) :=
  if o + W > x.len then .error ⟨.headerTruncated, o⟩
  else
    let sc := uint (sub x o (o + W))
    if sc = 0 then .ok (o + W, o + W)
    else
      let fw := widthOfCode sc
      if o + W + fw > x.len then .error ⟨.headerTruncated, o⟩
      else .ok (o + W + fw, o + W + fw + uint (sub x (o + W) (o + W + fw)))

/-- `frame(c, W) = create_header(c.len, W) ++ c` (42_framing R100); none where the header cannot be made. -/
def frame (c : BitString) (W : Nat) : Option BitString :=
  match createHeader c.len W with
  | none => none
  | some h => some (concat h c)

/-- The frames of the chunks from index `i` on, followed by `tail`; EncodingError carries the index of the first chunk
whose header cannot be made (42_framing R101, R107). -/
def framesThen (W : Nat) (tail : BitString) : Nat → List BitString → Except Raise BitString
  | _, [] => .ok tail
  | i, c :: cs =>
    match frame c W with
    | none => .error ⟨.encodingError, i⟩
    | some f =>
      match framesThen W tail (i + 1) cs with
      | .error e => .error e
      | .ok y => .ok (concat f y)

/-- `encode_chunks(ch, W)`: every chunk but the last as a frame, the last without a header (42_framing R101). -/
def encodeChunks (ch : List BitString) (W : Nat) : Except Raise BitString :=
  match ch.getLast? with
  | none => .ok BitString.empty
  | some last => framesThen W last 0 ch.dropLast

/-- `encode_list(ch, W)`: every chunk as a frame (42_framing R107). -/
def encodeList (ch : List BitString) (W : Nat) : Except Raise BitString := framesThen W BitString.empty 0 ch

/-- One pass of the decode loops (42_framing R105, R109): the frame whose header starts at `cur`, as its payload and the
offset after it. -/
def readFrame (x : BitString) (cur W : Nat) : Except Raise (BitString × Nat) :=
  match readHeader x cur W with
  | .error e => .error e
  | .ok (ps, pe) => if pe > x.len then .error ⟨.payloadTruncated, cur⟩ else .ok (sub x ps pe, pe)

/-- The loop of `decode_chunks` (42_framing R105): `k` headed frames from `cur` on, then all remaining bits. -/
def chunksFrom (x : BitString) (W : Nat) : Nat → Nat → Except Raise (List BitString)
  | 0, cur => .ok [sub x cur x.len]
  | k + 1, cur =>
    match readFrame x cur W with
    | .error e => .error e
    | .ok (c, next) =>
      match chunksFrom x W k next with
      | .error e => .error e
      | .ok out => .ok (c :: out)

/-- `decode_chunks(x, count, W)` (42_framing R105). -/
def decodeChunks (x : BitString) (count W : Nat) : Except Raise (List BitString) :=
  match count with
  | 0 => if x.len = 0 then .ok [] else .error ⟨.trailingGarbage, 0⟩
  | k + 1 => chunksFrom x W k 0

/-- The loop of `decode_list` (42_framing R109) with at most `fuel` passes. Every pass moves the cursor by at least
`W >= 1` (R111), so `x.len` passes are enough and the answer at `fuel = 0` short of the end is never given (log entry 11). -/
def framesFrom (x : BitString) (W : Nat) : Nat → Nat → Except Raise (List BitString)
  | fuel, cur =>
    if cur = x.len then .ok []
    else
      match fuel with
      | 0 => .error ⟨.headerTruncated, cur⟩
      | fuel + 1 =>
        match readFrame x cur W with
        | .error e => .error e
        | .ok (c, next) =>
          match framesFrom x W fuel next with
          | .error e => .error e
          | .ok out => .ok (c :: out)

/-- `decode_list(x, W)` (42_framing R109). -/
def decodeList (x : BitString) (W : Nat) : Except Raise (List BitString) := framesFrom x W x.len 0

end Sys2Proof.Machine
end

