-- ==== Sys2Proof/Machine/Flags.lean ====
section
/-! DEFINITION. The 8-bit codes of STATUS (60_exceptions R117, 10_state R24). The block has no flags or condition codes
(10_state R26). -/

namespace Sys2Proof.Machine

/-- The error kind in `STATUS[7:4]` (10_state R24). -/
def ErrorKind.kindNibble : ErrorKind → BitVec 4
  | .rangeError => 1
  | .encodingError => 2
  | .headerTruncated => 3
  | .payloadTruncated => 3
  | .trailingGarbage => 3
  | .capacityError => 4
  | .illegalCommand => 5

/-- The subkind in `STATUS[3:0]`: 0 except for DecodingError (10_state R24). -/
def ErrorKind.subkindNibble : ErrorKind → BitVec 4
  | .rangeError => 0
  | .encodingError => 0
  | .headerTruncated => 1
  | .payloadTruncated => 2
  | .trailingGarbage => 3
  | .capacityError => 0
  | .illegalCommand => 0

/-- The 8 bits of STATUS (60_exceptions R117). -/
def Status.code : Status → BitVec 8
  | .ok => 0x00
  | .error k => k.kindNibble ++ k.subkindNibble

end Sys2Proof.Machine
end

