-- ==== Sys2Proof/Machine/Operands.lean ====
section
/-! DEFINITION. How a command's fields are read as operands and how a number is put into a latch (00_scope R11,
30_encoding R55). There are no addressing modes. -/

namespace Sys2Proof.Machine

/-- `sext_32`: a scalar operand as a signed integer (00_scope R11). -/
def sext32 (v : Scalar) : Int := v.toInt

/-- `zext_32`: a scalar as a non-negative integer (00_scope R11). -/
def zext32 (v : Scalar) : Nat := v.toNat

/-- The header parameter `W = w` (30_encoding R55). -/
def widthOf (w : BitVec 4) : Nat := w.toNat

/-- The chunk count, unsigned (30_encoding R55). -/
def countOf (cnt : BitVec 8) : Nat := cnt.toNat

/-- A non-negative number in a 32-bit unsigned latch (10_state R22, R23, R25; log entry 14). -/
def latch (n : Nat) : Scalar := BitVec.ofNat 32 n

/-- The condition `w != 0` of 30_encoding R58. -/
def widthLegal (w : BitVec 4) : Bool := w != 0

/-- The register range `B[base] .. B[base + cnt - 1]` exists (30_encoding R58). -/
def rangeLegal (base : BReg) (cnt : BitVec 8) : Bool := decide (base.val + countOf cnt ≤ 16)

end Sys2Proof.Machine
end

