-- ==== Sys2Proof/Machine/Ops.lean ====
section
/-! DEFINITION. The named operations every command is built from: registers and ranges of registers, the data ports,
completing a command, raising an error (the block's exception entry, 60_exceptions R124), and the reset input. -/

namespace Sys2Proof.Machine

/-- `B[r]` (00_scope R14). -/
def State.reg (s : State) (r : BReg) : BitString := s.b[r]

/-- `B[r] <- x` (00_scope R14). -/
def State.setReg (s : State) (r : BReg) (x : BitString) : State := { s with b := s.b.set r x }

/-- The registers `B[base], ..., B[base + cnt - 1]` in order, for a range that exists (42_framing R102). -/
def State.range (s : State) (base : BReg) (cnt : Nat) : List BitString := (s.b.toList.drop base).take cnt

/-- `B[base + i] <- out[i]` for every `i`; every other register keeps its value (42_framing R106, R110;
log entry 15). -/
def State.setRange (s : State) (base : BReg) (out : List BitString) : State :=
  { s with b := Vector.ofFn fun r : Fin 16 => if base ≤ r then out.getD (r.val - base.val) (s.b[r]) else s.b[r] }

/-- `R0 <- v` (10_state R22). -/
def State.setR0 (s : State) (v : Scalar) : State := { s with r0 := v }

/-- `R1 <- v` (10_state R23). -/
def State.setR1 (s : State) (v : Scalar) : State := { s with r1 := v }

/-- `DIN`: the input bytes of the command at the port (20_memory R40). -/
def State.din (s : State) : List Byte :=
  match s.inputs with
  | .command request :: _ => request.din
  | _ => []

/-- `MemRead(a, n)`: the `n` bytes of DIN from index `a` on (00_scope R14). -/
def memRead (s : State) (a n : Nat) : List Byte := (s.din.drop a).take n

/-- The end of every command: STATUS and EINFO are written, the host's move is taken from the port (DIN is not kept,
10_state R30), and the response with its DOUT stands at the port (30_encoding R62). -/
def State.answer (s : State) (status : Status) (einfo : Scalar) (out : List Byte) : State :=
  { s with status := status, einfo := einfo, inputs := s.inputs.tail, dout := some out }

/-- A command completes: STATUS 0x00, EINFO 0, and `out` is its DOUT (10_state R24, R25; 20_memory R40). -/
def complete (out : List Byte) (s : State) : Answer := .next (s.answer .ok 0 out)

/-- A command raises an error: STATUS and EINFO are written and nothing else, DOUT is empty (60_exceptions R124). -/
def raise (kind : ErrorKind) (info : Nat) (s : State) : Answer := .next (s.answer (.error kind) (latch info) [])

/-- IllegalCommand (30_encoding R60). -/
def illegal (s : State) : Answer := raise .illegalCommand 0 s

/-- `B[bd] <- y` when `y` has at most `cap` bits, else CapacityError: the last test of CONCAT, ENCCH and ENCLS
(40_bitbuffer R80, 42_framing R102, R108). -/
def writeWithin (cap : Nat) (bd : BReg) (y : BitString) (s : State) : Answer :=
  if y.len > cap then raise .capacityError 0 s else complete [] (s.setReg bd y)

/-- The response `(STATUS, EINFO, R0, R1, DOUT)` (30_encoding R62). -/
structure Response where
  status : BitVec 8
  einfo : Scalar
  r0 : Scalar
  r1 : Scalar
  dout : List Byte
  deriving DecidableEq, Repr

/-- The response standing at the port, if there is one: the latches as they stand, and DOUT (30_encoding R62). -/
def State.response (s : State) : Option Response :=
  s.dout.map fun out => ⟨s.status.code, s.einfo, s.r0, s.r1, out⟩

/-- The reset input is asserted: the reset state, whatever was going on; a command in progress leaves no trace and gets
no response (70_reset_and_hazards R134, R135). -/
def enterReset (s : State) : Answer := .next { State.reset with resetIn := true, inputs := s.inputs.tail }

/-- The reset input is released (70_reset_and_hazards R134). -/
def leaveReset (s : State) : Answer := .next { s with resetIn := false, inputs := s.inputs.tail }

/-- A command presented while reset is asserted is not accepted: it changes nothing and gets no response
(70_reset_and_hazards R134, log entry 5). -/
def turnAway (s : State) : Answer := .next { s with inputs := s.inputs.tail, dout := none }

/-- Nothing is presented: the block waits (70_reset_and_hazards R135, log entry 12). -/
def waitForHost (s : State) : Answer := .next s

end Sys2Proof.Machine
end

