-- ==== Sys2Proof/Machine/BitBuffer.lean ====
section
/-! DEFINITION. The Bit Buffer commands: LOAD, STORE, LEN, SLICE, CONCAT, EQUAL (40_bitbuffer). Every source is read from
the state before any destination is written (10_state R19). -/

namespace Sys2Proof.Machine

/-- LOAD on a block whose `MAXBITS` is `cap` (40_bitbuffer R71; 00_scope R9, "the model takes it as an argument"). -/
def loadAt (cap : Nat) (bd : BReg) (nbits nbytes : Scalar) (s : State) : Answer :=
  if sext32 nbits < 0 ∨ sext32 nbytes < 0 ∨ (s.din.length : Int) ≠ sext32 nbytes ∨ sext32 nbits > 8 * sext32 nbytes then
    raise .rangeError 0 s
  else if (sext32 nbits).toNat > cap then raise .capacityError 0 s
  else
    let n := (sext32 nbits).toNat
    complete [] (s.setReg bd ⟨chop (memRead s 0 (ceil8 n)) n, n⟩)

/-- LOAD (40_bitbuffer R71). -/
def execLoad (bd : BReg) (nbits nbytes : Scalar) (s : State) : Answer := loadAt Config.maxBits bd nbits nbytes s

/-- STORE (40_bitbuffer R73). -/
def execStore (bs1 : BReg) (s : State) : Answer :=
  let x := s.reg bs1
  complete x.store ((s.setR0 (latch x.len)).setR1 (latch (ceil8 x.len)))

/-- LEN (40_bitbuffer R74). -/
def execLen (bs1 : BReg) (s : State) : Answer := complete [] (s.setR0 (latch (s.reg bs1).len))

/-- SLICE (40_bitbuffer R77). -/
def execSlice (bd bs1 : BReg) (start stop : Scalar) (s : State) : Answer :=
  match slice (s.reg bs1) (sext32 start) (sext32 stop) with
  | .error e => raise e.kind e.info s
  | .ok y => complete [] (s.setReg bd y)

/-- CONCAT on a block whose `MAXBITS` is `cap` (40_bitbuffer R80). -/
def concatAt (cap : Nat) (bd bs1 bs2 : BReg) (s : State) : Answer :=
  writeWithin cap bd (concat (s.reg bs1) (s.reg bs2)) s

/-- CONCAT (40_bitbuffer R80). -/
def execConcat (bd bs1 bs2 : BReg) (s : State) : Answer := concatAt Config.maxBits bd bs1 bs2 s

/-- EQUAL (40_bitbuffer R82). -/
def execEqual (bs1 bs2 : BReg) (s : State) : Answer :=
  complete [] (s.setR0 (if equal (s.reg bs1) (s.reg bs2) then 1 else 0))

end Sys2Proof.Machine
end

