-- ==== Sys2Proof/Machine/Framing.lean ====
section
/-! DEFINITION. The framing commands: ENCCH, DECCH, ENCLS, DECLS (42_framing). The decoder refuses `w = 0` and a register
range past B15 (30_encoding R58); a meaning given such a term raises the same IllegalCommand (log entry 9). -/

namespace Sys2Proof.Machine

/-- ENCCH on a block whose `MAXBITS` is `cap` (42_framing R102). -/
def encchAt (cap : Nat) (bd bs1 : BReg) (cnt : BitVec 8) (w : BitVec 4) (s : State) : Answer :=
  if widthLegal w && rangeLegal bs1 cnt then
    match encodeChunks (s.range bs1 (countOf cnt)) (widthOf w) with
    | .error e => raise e.kind e.info s
    | .ok y => writeWithin cap bd y s
  else illegal s

/-- ENCCH (42_framing R102). -/
def execEncch (bd bs1 : BReg) (cnt : BitVec 8) (w : BitVec 4) (s : State) : Answer :=
  encchAt Config.maxBits bd bs1 cnt w s

/-- DECCH (42_framing R106). -/
def execDecch (bd bs1 : BReg) (cnt : BitVec 8) (w : BitVec 4) (s : State) : Answer :=
  if widthLegal w && rangeLegal bd cnt then
    match decodeChunks (s.reg bs1) (countOf cnt) (widthOf w) with
    | .error e => raise e.kind e.info s
    | .ok out => complete [] (s.setRange bd out)
  else illegal s

/-- ENCLS on a block whose `MAXBITS` is `cap` (42_framing R108). -/
def enclsAt (cap : Nat) (bd bs1 : BReg) (cnt : BitVec 8) (w : BitVec 4) (s : State) : Answer :=
  if widthLegal w && rangeLegal bs1 cnt then
    match encodeList (s.range bs1 (countOf cnt)) (widthOf w) with
    | .error e => raise e.kind e.info s
    | .ok y => writeWithin cap bd y s
  else illegal s

/-- ENCLS (42_framing R108). -/
def execEncls (bd bs1 : BReg) (cnt : BitVec 8) (w : BitVec 4) (s : State) : Answer :=
  enclsAt Config.maxBits bd bs1 cnt w s

/-- DECLS (42_framing R110): the whole list is decoded before the register range is judged. -/
def execDecls (bd bs1 : BReg) (w : BitVec 4) (s : State) : Answer :=
  if widthLegal w then
    match decodeList (s.reg bs1) (widthOf w) with
    | .error e => raise e.kind e.info s
    | .ok out =>
      if bd.val + out.length > 16 then raise .capacityError 0 s
      else complete [] ((s.setRange bd out).setR0 (latch out.length))
  else illegal s

end Sys2Proof.Machine
end

