-- ==== Sys2Proof/Machine/HeaderCodec.lean ====
section
/-! DEFINITION. The header codec commands: MKHDR, RDHDR (41_header_codec). The decoder refuses `w = 0` (30_encoding R58);
a meaning given such a term raises the same IllegalCommand (log entry 9). -/

namespace Sys2Proof.Machine

/-- MKHDR (41_header_codec R93). -/
def execMkhdr (bd : BReg) (length : Scalar) (w : BitVec 4) (s : State) : Answer :=
  if widthLegal w then
    match createHeader (sext32 length) (widthOf w) with
    | none => raise .encodingError 0 s
    | some h => complete [] (s.setReg bd h)
  else illegal s

/-- RDHDR (41_header_codec R96). -/
def execRdhdr (bs1 : BReg) (offset : Scalar) (w : BitVec 4) (s : State) : Answer :=
  if widthLegal w then
    if sext32 offset < 0 ∨ sext32 offset > (s.reg bs1).len then raise .rangeError 0 s
    else
      match readHeader (s.reg bs1) (sext32 offset).toNat (widthOf w) with
      | .error e => raise e.kind e.info s
      | .ok (ps, pe) =>
        if pe > 2 ^ 32 - 1 then raise .payloadTruncated (sext32 offset).toNat s
        else complete [] ((s.setR0 (latch ps)).setR1 (latch pe))
  else illegal s

end Sys2Proof.Machine
end

