-- ==== Sys2Proof/Machine/Dispatch.lean ====
section
/-! DEFINITION. One arm per command: its meaning. -/

namespace Sys2Proof.Machine

def exec (i : Instr) (s : State) : Host.Outcome State Fault Refusal :=
  match i with
  | .load bd nbits nbytes => Sys2Proof.Machine.execLoad bd nbits nbytes s
  | .store bs1 => Sys2Proof.Machine.execStore bs1 s
  | .len bs1 => Sys2Proof.Machine.execLen bs1 s
  | .slice bd bs1 start stop => Sys2Proof.Machine.execSlice bd bs1 start stop s
  | .concat bd bs1 bs2 => Sys2Proof.Machine.execConcat bd bs1 bs2 s
  | .equal bs1 bs2 => Sys2Proof.Machine.execEqual bs1 bs2 s
  | .mkhdr bd length w => Sys2Proof.Machine.execMkhdr bd length w s
  | .rdhdr bs1 offset w => Sys2Proof.Machine.execRdhdr bs1 offset w s
  | .encch bd bs1 cnt w => Sys2Proof.Machine.execEncch bd bs1 cnt w s
  | .decch bd bs1 cnt w => Sys2Proof.Machine.execDecch bd bs1 cnt w s
  | .encls bd bs1 cnt w => Sys2Proof.Machine.execEncls bd bs1 cnt w s
  | .decls bd bs1 w => Sys2Proof.Machine.execDecls bd bs1 w s

end Sys2Proof.Machine
end

