-- ==== Sys2Proof/Machine/Step.lean ====
section
/-! DEFINITION. One step: the block takes the host's move at the port (00_scope R8, 20_memory R42). -/

namespace Sys2Proof.Machine

/-- The step. A command is decoded first; a word that is no command raises IllegalCommand before anything else is looked
at (30_encoding R60, 60_exceptions R125). -/
def step (s : State) : Host.Outcome State Fault Refusal :=
  match s.inputs with
  | [] => waitForHost s
  | .assertReset _ :: _ => enterReset s
  | .releaseReset :: _ => leaveReset s
  | .command request :: _ =>
    if s.resetIn then turnAway s
    else
      match decode request.word with
      | .error _ => illegal s
      | .ok i => exec i s

/-- `s` with one more command at the port, before every waiting move of the host: the word whose low `nbits` bits are `w`,
with no DIN; the reset input released, so that the next step takes it (log entry 6). -/
def State.withFetchWord (s : State) (nbits w : Nat) : State :=
  { s with resetIn := false, inputs := .command ⟨BitVec.ofNat 96 (w % 2 ^ nbits), []⟩ :: s.inputs }

end Sys2Proof.Machine
end

