-- ==== Sys2Proof/Machine/Capacity.lean ====
section
/-! DEFINITION. The block with `MAXBITS` as an argument (00_scope R9), for the statements that compare two sizes of block
(60_exceptions R122). Only LOAD, CONCAT, ENCCH and ENCLS depend on it. -/

namespace Sys2Proof.Machine

/-- What a command answers on a block whose `MAXBITS` is `cap` (00_scope R9, 60_exceptions R122). -/
def execAt (cap : Nat) (i : Instr) (s : State) : Answer :=
  match i with
  | .load bd nbits nbytes => loadAt cap bd nbits nbytes s
  | .store bs1 => execStore bs1 s
  | .len bs1 => execLen bs1 s
  | .slice bd bs1 start stop => execSlice bd bs1 start stop s
  | .concat bd bs1 bs2 => concatAt cap bd bs1 bs2 s
  | .equal bs1 bs2 => execEqual bs1 bs2 s
  | .mkhdr bd length w => execMkhdr bd length w s
  | .rdhdr bs1 offset w => execRdhdr bs1 offset w s
  | .encch bd bs1 cnt w => encchAt cap bd bs1 cnt w s
  | .decch bd bs1 cnt w => execDecch bd bs1 cnt w s
  | .encls bd bs1 cnt w => enclsAt cap bd bs1 cnt w s
  | .decls bd bs1 w => execDecls bd bs1 w s

end Sys2Proof.Machine
end

