-- ==== Sys2Proof/Machine/Datapath.lean ====
section
/-! DEFINITION. The byte-level reference datapaths of slice, concat and equal (40_bitbuffer R76, R79, R81). On canonical
operands they compute the same functions as the contracts in Machine/Bits.lean; Obligations.lean states it (log entry 13). -/

namespace Sys2Proof.Machine

/-- The inter-byte shift of both datapaths at byte `j`: `(t[j] << s) | (t[j+1] >> (8 - s))`, where a shift by 8 gives 0
(00_scope R12, 70_reset_and_hazards R137). -/
def carryByte (t : List Byte) (s j : Nat) : Byte := (byteAt t j <<< s) ||| (byteAt t (j + 1) >>> (8 - s))

/-- The slice datapath, for `0 <= s <= e <= x.len` (40_bitbuffer R76): copy the covering bytes, shift them by
`s mod 8` with carry, chop. -/
def sliceDatapath (x : BitString) (s e : Nat) : BitString :=
  let n := e - s
  if n = 0 then BitString.empty
  else
    let lo := s / 8
    let m := ceil8 e - lo
    let c := (x.store.drop lo).take m ++ [0]
    ⟨chop ((List.range m).map (carryByte c (s % 8))) n, n⟩

/-- Byte `j` of the concat datapath's array before the chop (40_bitbuffer R79): `la` is the number of bytes of the left
operand, `k` the number of padding bits in its last byte, `t` the two stores and one byte 0 in a row. -/
def concatByte (t : List Byte) (la k j : Nat) : Byte :=
  if j + 1 < la then byteAt t j
  else if j + 1 = la then byteAt t j ||| (byteAt t la >>> (8 - k))
  else carryByte t k j

/-- The concat datapath (40_bitbuffer R79): append the stores, move the right operand's bytes `k` offsets toward
offset 0, chop. -/
def concatDatapath (x y : BitString) : BitString :=
  let n := x.len + y.len
  let la := ceil8 x.len
  let lb := ceil8 y.len
  let k := (8 - x.len % 8) % 8
  let t := x.store ++ y.store ++ [0]
  ⟨chop ((List.range (la + lb)).map (concatByte t la k)) n, n⟩

/-- Equality as the block computes it, byte by byte (40_bitbuffer R81). -/
def equalBytes (x y : BitString) : Bool := x.len == y.len && x.store == y.store

end Sys2Proof.Machine
end

