-- ==== Sys2Proof/Safety.lean ====
section
/-! DEFINITION. The terms in which claims speak: what completing and failing mean, the frames of the commands, the errors
each may raise, the legality conditions of the opcode table, and the invariants of a run. -/

namespace Sys2Proof.Machine

/-- From `s` to `t` a command completed and answered with `out` (10_state R24, R25; 30_encoding R62): STATUS and EINFO are
0, its move left the port, the reset input is as it was. -/
def Completed (s t : State) (out : List Byte) : Prop :=
  t.status = .ok ∧ t.einfo = 0 ∧ t.dout = some out ∧ t.inputs = s.inputs.tail ∧ t.resetIn = s.resetIn

/-- From `s` to `t` a command failed (60_exceptions R124): STATUS and EINFO say so, DOUT is empty, and no register, not R0
and not R1, changed. -/
def Failed (s t : State) (kind : ErrorKind) (info : Nat) : Prop :=
  t.status = .error kind ∧ t.einfo.toNat = info ∧ t.dout = some [] ∧ t.inputs = s.inputs.tail ∧ t.resetIn = s.resetIn ∧
    t.b = s.b ∧ t.r0 = s.r0 ∧ t.r1 = s.r1

/-- Every register but `d` is unchanged. -/
def SameRegsBut (d : BReg) (s t : State) : Prop := ∀ r, r ≠ d → t.reg r = s.reg r

/-- `R0` and `R1` are unchanged. -/
def SameLatches (s t : State) : Prop := t.r0 = s.r0 ∧ t.r1 = s.r1

/-- `x` is the canonical BitString of length `n` whose bit at offset `p` is `f p`. -/
def HoldsBits (x : BitString) (n : Nat) (f : Nat → Bool) : Prop :=
  x.Canonical ∧ x.len = n ∧ ∀ p, p < n → x.bit p = f p

/-- The invariant of 10_state R20 (70_reset_and_hazards R141): every register holds a canonical BitString of at most
`MAXBITS` bits. -/
def State.Inv (s : State) : Prop := ∀ r, (s.reg r).Canonical ∧ (s.reg r).len ≤ Config.maxBits

/-- What EINFO may hold beside each STATUS (60_exceptions R123): a chunk index, a cursor, or 0. -/
def State.EinfoRule (s : State) : Prop :=
  match s.status with
  | .ok => s.einfo = 0
  | .error .encodingError => s.einfo.toNat < 16
  | .error .headerTruncated => s.einfo.toNat ≤ Config.maxBits
  | .error .payloadTruncated => s.einfo.toNat ≤ Config.maxBits
  | .error .rangeError => s.einfo = 0
  | .error .trailingGarbage => s.einfo = 0
  | .error .capacityError => s.einfo = 0
  | .error .illegalCommand => s.einfo = 0

/-- Every register and every latch is at its reset value and no response stands at the port
(70_reset_and_hazards R134, R135). -/
def State.AtReset (s : State) : Prop :=
  (∀ r, s.reg r = BitString.empty) ∧ s.r0 = 0 ∧ s.r1 = 0 ∧ s.status = .ok ∧ s.einfo = 0 ∧ s.response = none

/-- The registers a command may write: its destination, or its destination range (30_encoding R57; for DECLS the
registers from `B[bd]` on, of which it writes as many as it decodes chunks). -/
def mayWrite (i : Instr) (r : BReg) : Prop :=
  match i with
  | .load bd _ _ => r = bd
  | .slice bd _ _ _ => r = bd
  | .concat bd _ _ => r = bd
  | .mkhdr bd _ _ => r = bd
  | .encch bd _ _ _ => r = bd
  | .encls bd _ _ _ => r = bd
  | .decch bd _ cnt _ => bd.val ≤ r.val ∧ r.val < bd.val + cnt.toNat
  | .decls bd _ _ => bd.val ≤ r.val
  | .store _ => False
  | .len _ => False
  | .equal _ _ => False
  | .rdhdr _ _ _ => False

/-- The commands that may write `R0` (10_state R22). -/
def writesR0 (i : Instr) : Prop :=
  match i with
  | .store _ | .len _ | .equal _ _ | .rdhdr _ _ _ | .decls _ _ _ => True
  | .load _ _ _ | .slice _ _ _ _ | .concat _ _ _ | .mkhdr _ _ _ | .encch _ _ _ _ | .decch _ _ _ _ | .encls _ _ _ _ => False

/-- The commands that may write `R1` (10_state R23). -/
def writesR1 (i : Instr) : Prop :=
  match i with
  | .store _ | .rdhdr _ _ _ => True
  | .load _ _ _ | .len _ | .slice _ _ _ _ | .concat _ _ _ | .equal _ _ | .mkhdr _ _ _ | .encch _ _ _ _ | .decch _ _ _ _
  | .encls _ _ _ _ | .decls _ _ _ => False

/-- The errors a legal command may raise (60_exceptions R126, less the column IllegalCommand). -/
def mayRaise : Instr → List ErrorKind
  | .load _ _ _ => [.rangeError, .capacityError]
  | .store _ => []
  | .len _ => []
  | .slice _ _ _ _ => [.rangeError]
  | .concat _ _ _ => [.capacityError]
  | .equal _ _ => []
  | .mkhdr _ _ _ => [.encodingError]
  | .rdhdr _ _ _ => [.rangeError, .headerTruncated, .payloadTruncated]
  | .encch _ _ _ _ => [.encodingError, .capacityError]
  | .decch _ _ _ _ => [.headerTruncated, .payloadTruncated, .trailingGarbage]
  | .encls _ _ _ _ => [.encodingError, .capacityError]
  | .decls _ _ _ => [.headerTruncated, .payloadTruncated, .capacityError]

/-- The column `legal_if` of the opcode table (30_encoding R58), on the bits of the word. -/
def legalIf (op : Op) (c : CmdWord) : Prop :=
  match op with
  | .load | .store | .len | .slice | .concat | .equal => True
  | .mkhdr | .rdhdr | .decls => c.extractLsb' 72 4 ≠ 0
  | .encch | .encls =>
      c.extractLsb' 72 4 ≠ 0 ∧ (c.extractLsb' 80 4).toNat + (c.extractLsb' 64 8).toNat ≤ 16
  | .decch => c.extractLsb' 72 4 ≠ 0 ∧ (c.extractLsb' 84 4).toNat + (c.extractLsb' 64 8).toNat ≤ 16

end Sys2Proof.Machine
end

