-- ==== Sys2Proof/Certificates/Slice0/Obligations.lean ====
section
/-! DEFINITION. The statements for the provers, from the numbered rules of spec/. -/

open Sys2Proof Sys2Proof.Machine

/- ## The command word (30_encoding) -/

/-- Every legal command is read back from its own word, with every operand at every value (30_encoding R54, R57, R61). -/
def Obligations.DecodeEncodeRoundTrip : Prop :=
  ∀ i : Instr, i.wellFormed = true → decode (encode i) = .ok i

/-- A word that decodes is the encoding of exactly the command it decodes to, which is legal: every word has one meaning
and no bit of it is dropped (30_encoding R56, R58, R60, R61). -/
def Obligations.EveryDecodedWordIsItsEncoding : Prop :=
  ∀ (c : CmdWord) (i : Instr), decode c = .ok i → i.wellFormed = true ∧ encode i = c

/-- The words that decode are those that match a row of the opcode table under its mask and meet the row's condition
(30_encoding R57, R58, R60). -/
def Obligations.LegalWordsAreTheOpcodeTable : Prop :=
  ∀ c : CmdWord, (∃ i, decode c = .ok i) ↔ ∃ row ∈ opcodeTable, c &&& row.mask = row.pattern ∧ legalIf row.op c

/-- A word sent as 12 bytes, most significant first, or as three 32-bit pieces, is received as the same word
(20_memory R36, 30_encoding R53). -/
def Obligations.SerialisedWordRoundTrip : Prop :=
  ∀ c : CmdWord, (bytesOfWord c).length = 12 ∧ wordOfBytes (bytesOfWord c) = some c ∧
    (∀ p, p < 96 → bitAt (bytesOfWord c) p = c.getMsbD p) ∧
    wordOfPieces (c.extractLsb' 64 32) (c.extractLsb' 32 32) (c.extractLsb' 0 32) = c

/-- The worked encodings of 30_encoding R67, one of each command and CLR and MOV, decode to the commands they stand for. -/
def Obligations.WorkedEncodingsDecode : Prop :=
  decode (wordOfPieces 0x01200000 0x0000000B 0x00000002) = .ok (.load 2 11 2) ∧
  decode (wordOfPieces 0x02010000 0 0) = .ok (.store 1) ∧
  decode (wordOfPieces 0x030F0000 0 0) = .ok (.len 15) ∧
  decode (wordOfPieces 0x04100000 0xFFFFFFFF 0x00000004) = .ok (.slice 1 0 (-1) 4) ∧
  decode (wordOfPieces 0x05312000 0 0) = .ok (.concat 3 1 2) ∧
  decode (wordOfPieces 0x06012000 0 0) = .ok (.equal 1 2) ∧
  decode (wordOfPieces 0x10400400 0x00000011 0) = .ok (.mkhdr 4 17 4) ∧
  decode (wordOfPieces 0x11040400 0 0) = .ok (.rdhdr 4 0 4) ∧
  decode (wordOfPieces 0x20800403 0 0) = .ok (.encch 8 0 3 4) ∧
  decode (wordOfPieces 0x21480403 0 0) = .ok (.decch 4 8 3 4) ∧
  decode (wordOfPieces 0x22900403 0 0) = .ok (.encls 9 0 3 4) ∧
  decode (wordOfPieces 0x23490400 0 0) = .ok (.decls 4 9 4) ∧
  decode (wordOfPieces 0x01700000 0 0) = .ok (pseudoClr 7) ∧
  decode (wordOfPieces 0x20560401 0 0) = .ok (pseudoMov 5 6)

/- ## The step and the reset input (00_scope R8, 20_memory R42, 70_reset_and_hazards R134) -/

/-- A step whose move is a command with a legal word is `exec` of the command; nothing else is done around it: `exec` reads
DIN from the move and takes the move from the port (00_scope R8, 30_encoding R61). -/
def Obligations.StepRunsDecodedCommand : Prop :=
  ∀ (s : State) (request : Request) (later : List HostMove) (i : Instr),
    s.inputs = .command request :: later → s.resetIn = false → decode request.word = .ok i → step s = exec i s

/-- A word that is no command raises IllegalCommand with EINFO 0 and changes nothing else, whatever its DIN
(30_encoding R60, 60_exceptions R121). -/
def Obligations.IllegalWordFails : Prop :=
  ∀ (s : State) (request : Request) (later : List HostMove) (why : Illegal),
    s.inputs = .command request :: later → s.resetIn = false → decode request.word = .error why →
    ∃ t, step s = .next t ∧ Failed s t .illegalCommand 0

/-- Every state has a next state, and every command in every state answers one: no step stops, hangs or is refused
(00_scope R8). -/
def Obligations.EveryStepAnswersNext : Prop :=
  (∀ s : State, ∃ t, step s = .next t) ∧ ∀ (i : Instr) (s : State), ∃ t, exec i s = .next t

/-- Asserting the reset input gives the reset state, whatever the state was and whether or not a command was in progress,
which gets no response (70_reset_and_hazards R134, R135). -/
def Obligations.AssertedResetGivesResetState : Prop :=
  ∀ (s : State) (cut : Option Request) (later : List HostMove), s.inputs = .assertReset cut :: later →
    ∃ t, step s = .next t ∧ t.AtReset ∧ t.resetIn = true ∧ t.inputs = later

/-- While reset is asserted a command is not accepted: no register and no latch changes and there is no response. Releasing
reset changes no register and no latch, only the reset input, and a step with nothing presented changes nothing
(70_reset_and_hazards R134, R135). The model's part in it: that a command presented during reset is dropped (log entry 5,
DESIGN CHOICE), that the reset input is a level which a move of the host releases (log entry 4, DESIGN CHOICE), that a response
stays at the port while reset is released and while the block waits (log entry 3, DESIGN CHOICE), that the moves wait in a list
(log entry 2, DESIGN CHOICE), and that a step with nothing presented exists and changes nothing (log entry 12, DEDUCED). -/
def Obligations.MovesThatRunNoCommand : Prop :=
  (∀ (s : State) (request : Request) (later : List HostMove), s.inputs = .command request :: later → s.resetIn = true →
    ∃ t, step s = .next t ∧ t.b = s.b ∧ SameLatches s t ∧ t.status = s.status ∧ t.einfo = s.einfo ∧ t.response = none ∧
      t.resetIn = true ∧ t.inputs = later) ∧
  (∀ (s : State) (later : List HostMove), s.inputs = .releaseReset :: later →
    ∃ t, step s = .next t ∧ t.b = s.b ∧ SameLatches s t ∧ t.status = s.status ∧ t.einfo = s.einfo ∧
      t.response = s.response ∧ t.resetIn = false ∧ t.inputs = later) ∧
  ∀ s : State, s.inputs = [] → step s = .next s

/-- After reset every register is EMPTY and `R0`, `R1`, `STATUS` and `EINFO` are 0 (10_state R27, R28). -/
def Obligations.ResetStateValues : Prop :=
  (∀ r : BReg, (State.reset.reg r).len = 0 ∧ (State.reset.reg r).store = []) ∧
    State.reset.r0 = 0 ∧ State.reset.r1 = 0 ∧ State.reset.status.code = 0x00 ∧ State.reset.einfo = 0

/-- The reset state meets the invariants that every step keeps: every register canonical, EINFO as STATUS wants it, and every
register and latch at its reset value (10_state R20, R27, R28; 60_exceptions R123; 70_reset_and_hazards R135). That no response
stands at the port right after reset, which is part of `State.AtReset`, is the model's choice (log entry 3, DESIGN CHOICE). -/
def Obligations.ResetMeetsInvariants : Prop :=
  State.reset.Inv ∧ State.reset.EinfoRule ∧ State.reset.AtReset

/-- Every step from a state whose registers are canonical and fit gives such a state
(10_state R20, 70_reset_and_hazards R141). -/
def Obligations.StepKeepsCanonicalForm : Prop :=
  ∀ s t : State, s.Inv → step s = .next t → t.Inv

/-- Every step keeps the relation between STATUS and EINFO (60_exceptions R123). -/
def Obligations.StepKeepsEinfoRule : Prop :=
  ∀ s t : State, s.Inv → s.EinfoRule → step s = .next t → t.EinfoRule

/-- Every step keeps: while reset is asserted, everything is at its reset value (70_reset_and_hazards R134). -/
def Obligations.StepKeepsHeldReset : Prop :=
  ∀ s t : State, (s.resetIn = true → s.AtReset) → step s = .next t → t.resetIn = true → t.AtReset

/- ## Every command (10_state, 20_memory, 60_exceptions) -/

/-- No command reads `R0`, `R1`, `STATUS`, `EINFO` or the last response: changing them changes neither what a command writes
nor whether it fails (10_state R22 to R25, 40_bitbuffer R83). -/
def Obligations.ResultsIgnoreLatches : Prop :=
  ∀ (i : Instr) (s t : State) (r0 r1 einfo : Scalar) (status : Status) (dout : Option (List Byte)), exec i s = .next t →
    ∃ u, exec i { s with r0 := r0, r1 := r1, status := status, einfo := einfo, dout := dout } = .next u ∧
      u.b = t.b ∧ u.status = t.status ∧ u.einfo = t.einfo ∧ u.dout = t.dout ∧
      (t.status = .ok → (writesR0 i → u.r0 = t.r0) ∧ (writesR1 i → u.r1 = t.r1))

/-- DIN is ignored by every command but LOAD (20_memory R40). -/
def Obligations.OnlyLoadReadsDin : Prop :=
  ∀ (i : Instr) (s t : State) (moves : List HostMove), (∀ bd a b, i ≠ .load bd a b) → exec i s = .next t →
    exec i { s with inputs := moves } = .next { t with inputs := moves.tail }

/-- DOUT is empty except for a STORE that completes (20_memory R40, 30_encoding R62). -/
def Obligations.OnlyStoreGivesDout : Prop :=
  ∀ (i : Instr) (s t : State), exec i s = .next t →
    t.dout = some [] ∨ ∃ r, i = .store r ∧ t.status = .ok ∧ t.dout = some (s.reg r).store

/-- The state after a failing command differs from the state before it in STATUS and EINFO only; its DOUT is empty. This
holds of every legal command, and of a step on any word, legal or not (60_exceptions R124). In the model's terms the
command's move has left the port and the response stands there, as after every command (log entries 2, 3). -/
def Obligations.FailingCommandChangesNothingElse : Prop :=
  (∀ (i : Instr) (s t : State), exec i s = .next t → t.status ≠ .ok →
    t = { s with status := t.status, einfo := t.einfo, inputs := s.inputs.tail, dout := some [] }) ∧
  ∀ (s t : State) (request : Request) (later : List HostMove), s.inputs = .command request :: later → s.resetIn = false →
    step s = .next t → t.status ≠ .ok →
    t = { s with status := t.status, einfo := t.einfo, inputs := later, dout := some [] }

/-- A legal command raises no error but those of its row (60_exceptions R126). -/
def Obligations.ErrorsOfEachCommand : Prop :=
  ∀ (i : Instr) (s t : State) (k : ErrorKind), i.wellFormed = true → exec i s = .next t → t.status = .error k →
    k ∈ mayRaise i

/-- The frame of every command: the registers outside its destinations, `R0` and `R1` where it does not write them, and the
reset input are unchanged, and exactly its own move leaves the port (10_state R22, R23; 40_bitbuffer R83; 41_header_codec R93,
R96; 42_framing R102, R106, R108, R110). The waiting moves and the level of the reset input are the model's fields (log entries
2 and 4, DESIGN CHOICE). -/
def Obligations.FrameOfEveryCommand : Prop :=
  ∀ (i : Instr) (s t : State), exec i s = .next t →
    (∀ r, ¬ mayWrite i r → t.reg r = s.reg r) ∧ (¬ writesR0 i → t.r0 = s.r0) ∧ (¬ writesR1 i → t.r1 = s.r1) ∧
      t.resetIn = s.resetIn ∧ t.inputs = s.inputs.tail

/-- Raising `MAXBITS` can only turn CapacityError outcomes into completions, and the block is the one whose `MAXBITS` is
`Config.maxBits` (00_scope R9, 60_exceptions R122). -/
def Obligations.LargerBlockKeepsResults : Prop :=
  (∀ (i : Instr) (s : State), exec i s = execAt Config.maxBits i s) ∧
  ∀ (cap larger : Nat) (i : Instr) (s t u : State), cap ≤ larger → execAt cap i s = .next t → execAt larger i s = .next u →
    (t.status ≠ .error .capacityError → u = t) ∧ (t.status = .error .capacityError → u = t ∨ u.status = .ok)

/- ## The Bit Buffer commands (40_bitbuffer) -/

/-- LOAD completes when the counts are not negative, DIN has `nbytes` bytes that hold `nbits` bits, and the value fits: the
register holds the first `nbits` bits of DIN in canonical form (40_bitbuffer R71). -/
def Obligations.LoadCompletes : Prop :=
  ∀ (bd : BReg) (nbits nbytes : Scalar) (s : State), 0 ≤ sext32 nbits → 0 ≤ sext32 nbytes →
    (s.din.length : Int) = sext32 nbytes → sext32 nbits ≤ 8 * sext32 nbytes → sext32 nbits ≤ Config.maxBits →
    ∃ t, exec (.load bd nbits nbytes) s = .next t ∧ Completed s t [] ∧
      HoldsBits (t.reg bd) (sext32 nbits).toNat (bitAt s.din) ∧ SameRegsBut bd s t ∧ SameLatches s t

/-- LOAD fails with RangeError on a negative count, a DIN of another length or too many bits for the bytes, and only then,
when the value does not fit, with CapacityError (40_bitbuffer R71, 60_exceptions R125). -/
def Obligations.LoadFails : Prop :=
  ∀ (bd : BReg) (nbits nbytes : Scalar) (s : State),
    if sext32 nbits < 0 ∨ sext32 nbytes < 0 ∨ (s.din.length : Int) ≠ sext32 nbytes ∨ sext32 nbits > 8 * sext32 nbytes then
      ∃ t, exec (.load bd nbits nbytes) s = .next t ∧ Failed s t .rangeError 0
    else sext32 nbits > Config.maxBits → ∃ t, exec (.load bd nbits nbytes) s = .next t ∧ Failed s t .capacityError 0

/-- STORE completes: DOUT is the store, `R0` the bit length and `R1` the number of bytes, which is that of DOUT; no register
changes (40_bitbuffer R73). -/
def Obligations.StoreCompletes : Prop :=
  ∀ (bs1 : BReg) (s : State), s.Inv →
    ∃ t, exec (.store bs1) s = .next t ∧ Completed s t (s.reg bs1).store ∧ t.r0.toNat = (s.reg bs1).len ∧
      t.r1.toNat = ceil8 (s.reg bs1).len ∧ t.r1.toNat = (s.reg bs1).store.length ∧ t.b = s.b

/-- LEN completes: `R0` is the bit length; `R1` and the registers are unchanged (40_bitbuffer R74). -/
def Obligations.LenCompletes : Prop :=
  ∀ (bs1 : BReg) (s : State), s.Inv →
    ∃ t, exec (.len bs1) s = .next t ∧ Completed s t [] ∧ t.r0.toNat = (s.reg bs1).len ∧ t.r1 = s.r1 ∧ t.b = s.b

/-- SLICE completes for `0 <= start <= end <= bit_length`: bit `i` of the destination is bit `start + i` of the source
(40_bitbuffer R75, R77). The destination may be the source. -/
def Obligations.SliceCompletes : Prop :=
  ∀ (bd bs1 : BReg) (start stop : Scalar) (s : State), 0 ≤ sext32 start → sext32 start ≤ sext32 stop →
    sext32 stop ≤ (s.reg bs1).len →
    ∃ t, exec (.slice bd bs1 start stop) s = .next t ∧ Completed s t [] ∧
      HoldsBits (t.reg bd) (sext32 stop - sext32 start).toNat (fun p => (s.reg bs1).bit ((sext32 start).toNat + p)) ∧
      SameRegsBut bd s t ∧ SameLatches s t

/-- SLICE fails with RangeError when `start < 0`, `end < start` or `end > bit_length`, and on no other operands does it fail or
raise anything (40_bitbuffer R77, 60_exceptions R118). -/
def Obligations.SliceRangeError : Prop :=
  ∀ (bd bs1 : BReg) (start stop : Scalar) (s : State),
    ((sext32 start < 0 ∨ sext32 stop < sext32 start ∨ sext32 stop > (s.reg bs1).len) →
      ∃ t, exec (.slice bd bs1 start stop) s = .next t ∧ Failed s t .rangeError 0) ∧
    ∀ t, exec (.slice bd bs1 start stop) s = .next t → t.status ≠ .ok →
      sext32 start < 0 ∨ sext32 stop < sext32 start ∨ sext32 stop > (s.reg bs1).len

/-- CONCAT completes when the sum of the lengths fits: the bits of the first source, then those of the second
(40_bitbuffer R78, R80). The destination may be either source. -/
def Obligations.ConcatCompletes : Prop :=
  ∀ (bd bs1 bs2 : BReg) (s : State), (s.reg bs1).len + (s.reg bs2).len ≤ Config.maxBits →
    ∃ t, exec (.concat bd bs1 bs2) s = .next t ∧ Completed s t [] ∧
      HoldsBits (t.reg bd) ((s.reg bs1).len + (s.reg bs2).len)
        (fun p => if p < (s.reg bs1).len then (s.reg bs1).bit p else (s.reg bs2).bit (p - (s.reg bs1).len)) ∧
      SameRegsBut bd s t ∧ SameLatches s t

/-- CONCAT fails with CapacityError when the sum of the lengths does not fit (40_bitbuffer R80). -/
def Obligations.ConcatCapacityError : Prop :=
  ∀ (bd bs1 bs2 : BReg) (s : State), (s.reg bs1).len + (s.reg bs2).len > Config.maxBits →
    ∃ t, exec (.concat bd bs1 bs2) s = .next t ∧ Failed s t .capacityError 0

/-- EQUAL completes: `R0` is 1 when the lengths and every significant bit match and 0 otherwise; `R1` and the registers are
unchanged (40_bitbuffer R81, R82). -/
def Obligations.EqualCompletes : Prop :=
  ∀ (bs1 bs2 : BReg) (s : State),
    ∃ t, exec (.equal bs1 bs2) s = .next t ∧ Completed s t [] ∧ t.r1 = s.r1 ∧ t.b = s.b ∧
      (((s.reg bs1).len = (s.reg bs2).len ∧ ∀ p, p < (s.reg bs1).len → (s.reg bs1).bit p = (s.reg bs2).bit p) →
        t.r0 = 1) ∧
      (¬ ((s.reg bs1).len = (s.reg bs2).len ∧ ∀ p, p < (s.reg bs1).len → (s.reg bs1).bit p = (s.reg bs2).bit p) →
        t.r0 = 0)

/- ## The Bit Buffer functions (10_state, 40_bitbuffer) -/

/-- chop gives a canonical BitString, keeps exactly the bits below `n`, is idempotent, and is the identity on the store of a
canonical BitString of that length (40_bitbuffer R70). -/
def Obligations.ChopKeepsExactlyTheBits : Prop :=
  (∀ (t : List Byte) (n : Nat), n ≤ 8 * t.length →
    HoldsBits ⟨chop t n, n⟩ n (bitAt t) ∧ chop (chop t n) n = chop t n) ∧
  ∀ x : BitString, x.Canonical → chop x.store x.len = x.store

/-- The slice datapath computes the contract of slice on every canonical BitString and every range, aligned or not
(40_bitbuffer R76; 70_reset_and_hazards R137 to R139). -/
def Obligations.SliceDatapathMeetsContract : Prop :=
  ∀ (x : BitString) (s e : Nat), x.Canonical → s ≤ e → e ≤ x.len → sliceDatapath x s e = sub x s e

/-- The concat datapath computes the contract of concat on all canonical BitStrings
(40_bitbuffer R79; 70_reset_and_hazards R137 to R139). -/
def Obligations.ConcatDatapathMeetsContract : Prop :=
  ∀ x y : BitString, x.Canonical → y.Canonical → concatDatapath x y = concat x y

/-- On canonical BitStrings equality byte by byte is equality bit by bit, which is being the same value
(40_bitbuffer R81, 10_state R31). -/
def Obligations.ByteEqualityMeetsContract : Prop :=
  ∀ x y : BitString, x.Canonical → y.Canonical → equalBytes x y = equal x y ∧ (equal x y = true ↔ x = y)

/-- The laws of slice and concat (40_bitbuffer R84): the rendering of a slice and of a concatenation, associativity, identity,
cutting a concatenation apart, putting a cut value together, and slicing a slice. -/
def Obligations.BitBufferLaws : Prop :=
  (∀ (x : BitString) (s e : Nat), s ≤ e → e ≤ x.len → slice x s e = .ok (sub x s e) ∧
    binstr (sub x s e) = ((binstr x).drop s).take (e - s)) ∧
  (∀ x y : BitString, binstr (concat x y) = binstr x ++ binstr y) ∧
  (∀ x y z : BitString, equal (concat x (concat y z)) (concat (concat x y) z) = true) ∧
  (∀ x : BitString, equal (concat x BitString.empty) x = true) ∧
  (∀ x y : BitString, x.Canonical → y.Canonical → concat BitString.empty x = x ∧ sub (concat x y) 0 x.len = x ∧
    sub (concat x y) x.len (x.len + y.len) = y) ∧
  (∀ (x : BitString) (s : Nat), x.Canonical → s ≤ x.len → concat (sub x 0 s) (sub x s x.len) = x) ∧
  ∀ (x : BitString) (a b c d : Nat), a ≤ b → b ≤ x.len → c ≤ d → d ≤ b - a →
    sub (sub x a b) c d = sub x (a + c) (a + d)

/-- LOAD of all the bits of a byte sequence and then STORE, as two steps, gives the same bytes back, with `R0` the number of
bits and `R1` the number of bytes (40_bitbuffer R72). -/
def Obligations.RawBytesRoundTrip : Prop :=
  ∀ (bd : BReg) (bytes ignored : List Byte) (s : State) (later : List HostMove),
    8 * bytes.length ≤ Config.maxBits → s.resetIn = false →
    s.inputs = .command ⟨encode (.load bd (BitVec.ofNat 32 (8 * bytes.length)) (BitVec.ofNat 32 bytes.length)), bytes⟩ ::
      .command ⟨encode (.store bd), ignored⟩ :: later →
    ∃ u t, step s = .next u ∧ step u = .next t ∧ ∃ r, t.response = some r ∧ r.status = 0x00 ∧ r.dout = bytes ∧
      r.r0.toNat = 8 * bytes.length ∧ r.r1.toNat = bytes.length

/- ## The header codec (41_header_codec) -/

/-- numBits is 0 for 0 and otherwise the one `h >= 1` with `2^(h-1) <= v < 2^h` (41_header_codec R86). -/
def Obligations.NumBitsIsTheLeastWidth : Prop :=
  numBits 0 = 0 ∧ ∀ v, 1 ≤ v → 1 ≤ numBits v ∧ 2 ^ (numBits v - 1) ≤ v ∧ v < 2 ^ numBits v ∧
    ∀ h, 1 ≤ h → 2 ^ (h - 1) ≤ v → v < 2 ^ h → h = numBits v

/-- field_width is 0 for 0 and otherwise the least power of two that is at least `h` (41_header_codec R87). -/
def Obligations.FieldWidthIsTheLeastPowerOfTwo : Prop :=
  fieldWidth 0 = 0 ∧ ∀ h, 1 ≤ h → ∃ j, fieldWidth h = 2 ^ j ∧ h ≤ 2 ^ j ∧ ∀ k, h ≤ 2 ^ k → j ≤ k

/-- size_code is 0 for an empty field and `j + 1` for a field of `2^j` bits, and the decoder's field width of a size_code is
its inverse (41_header_codec R88). -/
def Obligations.SizeCodeInvertsFieldWidth : Prop :=
  sizeCode 0 = 0 ∧ (∀ j, sizeCode (2 ^ j) = j + 1) ∧ widthOfCode 0 = 0 ∧ (∀ c, 1 ≤ c → widthOfCode c = 2 ^ (c - 1)) ∧
    ∀ h, widthOfCode (sizeCode (fieldWidth h)) = fieldWidth h

/-- A header read at its place between any two BitStrings gives the offsets of its payload (41_header_codec R97). -/
def Obligations.HeaderRoundTrip : Prop :=
  ∀ (W : Nat) (length : Int) (pre post h : BitString), 1 ≤ W → W ≤ 15 → createHeader length W = some h →
    readHeader (concat (concat pre h) post) pre.len W =
      .ok (pre.len + (W + fieldWidth (numBits length.toNat)),
        pre.len + (W + fieldWidth (numBits length.toNat)) + length.toNat)

/-- The code is self-delimiting and minimal. No header begins another one for the same `W` (41_header_codec R95 (d)). Each length
has one header: among the BitStrings that read back as a header of the length and nothing else, none is shorter than the one
`create_header` gives and none of its length is another (41_header_codec R91). -/
def Obligations.NoHeaderBeginsAnother : Prop :=
  (∀ (W : Nat) (length length' : Int) (h h' : BitString), 1 ≤ W → W ≤ 15 → createHeader length W = some h →
    createHeader length' W = some h' → h.bits <+: h'.bits → length = length' ∧ h = h') ∧
  ∀ (W : Nat) (length : Int) (h x : BitString), 1 ≤ W → W ≤ 15 → createHeader length W = some h → x.Canonical →
    readHeader x 0 W = .ok (x.len, x.len + length.toNat) → h.len ≤ x.len ∧ (x.len = h.len → x = h)

/-- MKHDR completes for a length that is not negative and whose size_code fits `W` bits: the register holds `size_code` in
`W` bits, then the length in `field_width` bits, both big-endian (41_header_codec R90, R93). -/
def Obligations.MkhdrCompletes : Prop :=
  ∀ (bd : BReg) (length : Scalar) (w : BitVec 4) (s : State), w ≠ 0 → 0 ≤ sext32 length →
    let L := (sext32 length).toNat
    let fw := fieldWidth (numBits L)
    sizeCode fw ≤ 2 ^ w.toNat - 1 →
    ∃ t, exec (.mkhdr bd length w) s = .next t ∧ Completed s t [] ∧
      HoldsBits (t.reg bd) (w.toNat + fw)
        (fun p => if p < w.toNat then (sizeCode fw).testBit (w.toNat - 1 - p) else L.testBit (fw - 1 - (p - w.toNat))) ∧
      SameRegsBut bd s t ∧ SameLatches s t

/-- MKHDR fails with EncodingError on a negative length and on a size_code that does not fit `W` bits
(41_header_codec R90, R93; 60_exceptions R119). -/
def Obligations.MkhdrEncodingError : Prop :=
  ∀ (bd : BReg) (length : Scalar) (w : BitVec 4) (s : State), w ≠ 0 →
    (sext32 length < 0 ∨ sizeCode (fieldWidth (numBits (sext32 length).toNat)) > 2 ^ w.toNat - 1) →
    ∃ t, exec (.mkhdr bd length w) s = .next t ∧ Failed s t .encodingError 0

/-- RDHDR completes when the header lies in the register and the end offset fits 32 bits: `R0` is where the payload begins,
`R1` is `R0` plus the announced length; no register changes (41_header_codec R94, R96). -/
def Obligations.RdhdrCompletes : Prop :=
  ∀ (bs1 : BReg) (offset : Scalar) (w : BitVec 4) (s : State), w ≠ 0 → 0 ≤ sext32 offset →
    let x := s.reg bs1
    let o := (sext32 offset).toNat
    let fw := widthOfCode (uint (sub x o (o + w.toNat)))
    let start := o + w.toNat + fw
    let L := uint (sub x (o + w.toNat) start)
    start ≤ x.len → start + L ≤ 2 ^ 32 - 1 →
    ∃ t, exec (.rdhdr bs1 offset w) s = .next t ∧ Completed s t [] ∧ t.r0.toNat = start ∧ t.r1.toNat = start + L ∧ t.b = s.b

/-- RDHDR fails with RangeError on an offset outside the register, with HeaderTruncated when the header does not lie in the
register, and with PayloadTruncated when the end offset does not fit 32 bits, in this order; EINFO is the offset in the last
two (41_header_codec R96, 60_exceptions R123, R125). -/
def Obligations.RdhdrFails : Prop :=
  ∀ (bs1 : BReg) (offset : Scalar) (w : BitVec 4) (s : State), w ≠ 0 →
    let x := s.reg bs1
    let o := (sext32 offset).toNat
    let fw := widthOfCode (uint (sub x o (o + w.toNat)))
    let start := o + w.toNat + fw
    let L := uint (sub x (o + w.toNat) start)
    if sext32 offset < 0 ∨ sext32 offset > x.len then
      ∃ t, exec (.rdhdr bs1 offset w) s = .next t ∧ Failed s t .rangeError 0
    else if start > x.len then ∃ t, exec (.rdhdr bs1 offset w) s = .next t ∧ Failed s t .headerTruncated o
    else start + L > 2 ^ 32 - 1 → ∃ t, exec (.rdhdr bs1 offset w) s = .next t ∧ Failed s t .payloadTruncated o

/- ## Framing (42_framing) -/

/-- The encoders give the frames of the chunks in order, and `encode_chunks` the last chunk without a header
(42_framing R100, R101, R107). -/
def Obligations.EncodersGiveFramesInOrder : Prop :=
  ∀ (W : Nat) (ch hs : List BitString), List.Forall₂ (fun c h => createHeader c.len W = some h) ch hs →
    encodeList ch W = .ok (mk (List.zipWith (fun h c => h.bits ++ c.bits) hs ch).flatten) ∧
    encodeChunks [] W = .ok BitString.empty ∧
    ∀ last : BitString, last.Canonical →
      encodeChunks (ch ++ [last]) W = .ok (mk ((List.zipWith (fun h c => h.bits ++ c.bits) hs ch).flatten ++ last.bits))

/-- The encoders fail with the index of the first chunk whose header cannot be made; the last chunk of `encode_chunks` has
none (42_framing R101, R107). -/
def Obligations.EncodersFailAtTheFirstBadChunk : Prop :=
  ∀ (W : Nat) (before after : List BitString) (c : BitString), (∀ d ∈ before, createHeader d.len W ≠ none) →
    createHeader c.len W = none →
    encodeList (before ++ c :: after) W = .error ⟨.encodingError, before.length⟩ ∧
    (after ≠ [] → encodeChunks (before ++ c :: after) W = .error ⟨.encodingError, before.length⟩)

/-- The loop of `decode_list`: the number of passes the model allows is enough, whatever more it were, and the answer meets
the loop's own equation at every cursor (42_framing R109, R111). -/
def Obligations.DecodeListMeetsItsLoop : Prop :=
  ∀ (x : BitString) (W fuel cur : Nat), 1 ≤ W → cur ≤ x.len → x.len - cur ≤ fuel →
    framesFrom x W fuel cur =
      if cur = x.len then .ok []
      else match readFrame x cur W with
        | .error e => .error e
        | .ok (c, next) =>
          match framesFrom x W (x.len - next) next with
          | .error e => .error e
          | .ok out => .ok (c :: out)

/-- Chunk round trip for every number of chunks (42_framing R112). -/
def Obligations.ChunkRoundTrip : Prop :=
  ∀ (W : Nat) (ch : List BitString) (y : BitString), 1 ≤ W → W ≤ 15 → (∀ c ∈ ch, c.Canonical) → encodeChunks ch W = .ok y →
    decodeChunks y ch.length W = .ok ch

/-- List round trip for every sequence: decoding stops exactly at the end (42_framing R112). -/
def Obligations.ListRoundTrip : Prop :=
  ∀ (W : Nat) (ch : List BitString) (y : BitString), 1 ≤ W → W ≤ 15 → (∀ c ∈ ch, c.Canonical) → encodeList ch W = .ok y →
    decodeList y W = .ok ch

/-- A chunk encoding that ends before the end of a headed frame fails with a DecodingError that gives the offset of that frame,
and no chunks. A cut inside the frame, mid-header or mid-payload, is the boundary law (42_framing R113); the cut `n = p.len`,
exactly before a frame that has a header, fails by the procedure of 42_framing R105, which reads that header and finds nothing
(log entry 18). -/
def Obligations.CutChunkEncodingFails : Prop :=
  ∀ (W n : Nat) (before after : List BitString) (c y p f : BitString), 1 ≤ W → W ≤ 15 → after ≠ [] →
    encodeChunks (before ++ c :: after) W = .ok y → encodeList before W = .ok p → frame c W = some f →
    p.len ≤ n → n < p.len + f.len →
    ∃ k ∈ [ErrorKind.headerTruncated, ErrorKind.payloadTruncated],
      decodeChunks (sub y 0 n) (before ++ c :: after).length W = .error ⟨k, p.len⟩

/-- ENCCH completes when every headed chunk's header can be made and the result fits; the chunks are the registers from `B[bs1]`
on, in order, as many as `cnt` says (42_framing R102). The destination may lie inside the source range. -/
def Obligations.EncchCompletes : Prop :=
  ∀ (bd bs1 : BReg) (cnt : BitVec 8) (w : BitVec 4) (s : State) (y : BitString), w ≠ 0 → bs1.val + cnt.toNat ≤ 16 →
    encodeChunks (s.range bs1 cnt.toNat) w.toNat = .ok y → y.len ≤ Config.maxBits →
    (s.range bs1 cnt.toNat).length = cnt.toNat ∧
    (∀ (q : BReg) (i : Nat), q.val = bs1.val + i → i < cnt.toNat → (s.range bs1 cnt.toNat)[i]? = some (s.reg q)) ∧
    ∃ t, exec (.encch bd bs1 cnt w) s = .next t ∧ Completed s t [] ∧ t.reg bd = y ∧ SameRegsBut bd s t ∧ SameLatches s t

/-- ENCLS completes when every chunk's header can be made and the result fits; the chunks are the registers from `B[bs1]` on, in
order, as many as `cnt` says (42_framing R108). The destination may lie inside the source range. -/
def Obligations.EnclsCompletes : Prop :=
  ∀ (bd bs1 : BReg) (cnt : BitVec 8) (w : BitVec 4) (s : State) (y : BitString), w ≠ 0 → bs1.val + cnt.toNat ≤ 16 →
    encodeList (s.range bs1 cnt.toNat) w.toNat = .ok y → y.len ≤ Config.maxBits →
    (s.range bs1 cnt.toNat).length = cnt.toNat ∧
    (∀ (q : BReg) (i : Nat), q.val = bs1.val + i → i < cnt.toNat → (s.range bs1 cnt.toNat)[i]? = some (s.reg q)) ∧
    ∃ t, exec (.encls bd bs1 cnt w) s = .next t ∧ Completed s t [] ∧ t.reg bd = y ∧ SameRegsBut bd s t ∧ SameLatches s t

/-- ENCCH and ENCLS fail with EncodingError and the index of the chunk, and with CapacityError when the finished result does
not fit (42_framing R102, R108; 60_exceptions R119, R125). -/
def Obligations.EncodeCommandsFail : Prop :=
  ∀ (bd bs1 : BReg) (cnt : BitVec 8) (w : BitVec 4) (s : State), w ≠ 0 → bs1.val + cnt.toNat ≤ 16 →
    (∀ e, encodeChunks (s.range bs1 cnt.toNat) w.toNat = .error e →
      e.kind = .encodingError ∧ e.info < cnt.toNat ∧
      ∃ t, exec (.encch bd bs1 cnt w) s = .next t ∧ Failed s t .encodingError e.info) ∧
    (∀ y, encodeChunks (s.range bs1 cnt.toNat) w.toNat = .ok y → y.len > Config.maxBits →
      ∃ t, exec (.encch bd bs1 cnt w) s = .next t ∧ Failed s t .capacityError 0) ∧
    (∀ e, encodeList (s.range bs1 cnt.toNat) w.toNat = .error e →
      e.kind = .encodingError ∧ e.info < cnt.toNat ∧
      ∃ t, exec (.encls bd bs1 cnt w) s = .next t ∧ Failed s t .encodingError e.info) ∧
    ∀ y, encodeList (s.range bs1 cnt.toNat) w.toNat = .ok y → y.len > Config.maxBits →
      ∃ t, exec (.encls bd bs1 cnt w) s = .next t ∧ Failed s t .capacityError 0

/-- DECCH completes when the source decodes: exactly `cnt` chunks, chunk `i` in register `bd + i`, every other register and
both latches unchanged (42_framing R105, R106). The source may lie inside the destination range. -/
def Obligations.DecchCompletes : Prop :=
  ∀ (bd bs1 : BReg) (cnt : BitVec 8) (w : BitVec 4) (s : State) (out : List BitString), w ≠ 0 →
    bd.val + cnt.toNat ≤ 16 → decodeChunks (s.reg bs1) cnt.toNat w.toNat = .ok out →
    out.length = cnt.toNat ∧
    ∃ t, exec (.decch bd bs1 cnt w) s = .next t ∧ Completed s t [] ∧ SameLatches s t ∧
      (∀ (r : BReg) (i : Nat), r.val = bd.val + i → ∀ h : i < out.length, t.reg r = out[i]) ∧
      ∀ r : BReg, r.val < bd.val ∨ bd.val + cnt.toNat ≤ r.val → t.reg r = s.reg r

/-- DECLS completes when the source decodes and its chunks fit from `B[bd]` on: chunk `i` in register `bd + i`, `R0` the number
of chunks, every other register and `R1` unchanged (42_framing R109, R110). -/
def Obligations.DeclsCompletes : Prop :=
  ∀ (bd bs1 : BReg) (w : BitVec 4) (s : State) (out : List BitString), w ≠ 0 →
    decodeList (s.reg bs1) w.toNat = .ok out → bd.val + out.length ≤ 16 →
    ∃ t, exec (.decls bd bs1 w) s = .next t ∧ Completed s t [] ∧ t.r0.toNat = out.length ∧ t.r1 = s.r1 ∧
      (∀ (r : BReg) (i : Nat), r.val = bd.val + i → ∀ h : i < out.length, t.reg r = out[i]) ∧
      ∀ r : BReg, r.val < bd.val ∨ bd.val + out.length ≤ r.val → t.reg r = s.reg r

/-- DECCH and DECLS fail with the DecodingError of the decode and its cursor, which is inside the source; TrailingGarbage is
DECCH's alone, for `cnt = 0` and a source that is not empty; DECLS fails with CapacityError only when the whole list decoded
(42_framing R105, R106, R109, R110; 60_exceptions R120, R125). -/
def Obligations.DecodeCommandsFail : Prop :=
  ∀ (bd bs1 : BReg) (cnt : BitVec 8) (w : BitVec 4) (s : State), s.Inv → w ≠ 0 →
    (bd.val + cnt.toNat ≤ 16 → ∀ e, decodeChunks (s.reg bs1) cnt.toNat w.toNat = .error e →
      (if cnt = 0 then e = ⟨.trailingGarbage, 0⟩ ∧ (s.reg bs1).len ≠ 0
        else (e.kind = .headerTruncated ∨ e.kind = .payloadTruncated) ∧ e.info ≤ (s.reg bs1).len) ∧
      ∃ t, exec (.decch bd bs1 cnt w) s = .next t ∧ Failed s t e.kind e.info) ∧
    (∀ e, decodeList (s.reg bs1) w.toNat = .error e →
      (e.kind = .headerTruncated ∨ e.kind = .payloadTruncated) ∧ e.info < (s.reg bs1).len ∧
      ∃ t, exec (.decls bd bs1 w) s = .next t ∧ Failed s t e.kind e.info) ∧
    ∀ out, decodeList (s.reg bs1) w.toNat = .ok out → bd.val + out.length > 16 →
      ∃ t, exec (.decls bd bs1 w) s = .next t ∧ Failed s t .capacityError 0

/-- The pseudo-commands: CLR empties its register; MOV and REST copy one register to another (30_encoding R64, R65, R66). -/
def Obligations.PseudoCommands : Prop :=
  ∀ (bd bs1 : BReg) (s : State), s.Inv →
    (s.din = [] → ∃ t, exec (pseudoClr bd) s = .next t ∧ Completed s t [] ∧ t.reg bd = BitString.empty ∧ SameRegsBut bd s t ∧
      SameLatches s t) ∧
    (∃ t, exec (pseudoMov bd bs1) s = .next t ∧ Completed s t [] ∧ t.reg bd = s.reg bs1 ∧ SameRegsBut bd s t ∧
      SameLatches s t) ∧
    ∃ t, exec (pseudoRest bd bs1) s = .next t ∧ Completed s t [] ∧ t.reg bd = s.reg bs1 ∧ SameRegsBut bd s t ∧
      SameLatches s t

/- ## The codes of STATUS (10_state R24, 60_exceptions R117) -/

/-- STATUS takes exactly the eight values of 60_exceptions R117, each for one outcome, and the response of every command, on a
word legal or not, shows the code of the outcome beside `EINFO`, `R0`, `R1` and DOUT as the command left them (10_state R24,
30_encoding R62). That the response is read off the state after the step is the model's form of it (log entry 3). -/
def Obligations.ResponseShowsTheStatusCode : Prop :=
  (Status.code .ok = 0x00 ∧ Status.code (.error .rangeError) = 0x10 ∧ Status.code (.error .encodingError) = 0x20 ∧
    Status.code (.error .headerTruncated) = 0x31 ∧ Status.code (.error .payloadTruncated) = 0x32 ∧
    Status.code (.error .trailingGarbage) = 0x33 ∧ Status.code (.error .capacityError) = 0x40 ∧
    Status.code (.error .illegalCommand) = 0x50) ∧
  (∀ a b : Status, a.code = b.code → a = b) ∧
  ∀ (s t : State) (request : Request) (later : List HostMove), s.inputs = .command request :: later → s.resetIn = false →
    step s = .next t →
    ∃ r, t.response = some r ∧ r.status = t.status.code ∧ r.einfo = t.einfo ∧ r.r0 = t.r0 ∧ r.r1 = t.r1 ∧
      t.dout = some r.dout
end

