-- ==== Sys2Proof/Laws/Bits.lean ====
section
/-! SUPPORT. The BitString functions against their contracts: `mk` and `bits` are inverse on canonical BitStrings
(00_scope R13, 10_state R18), and every function that builds a BitString builds a canonical one (10_state R17). -/

namespace Sys2Proof.Machine

@[simp] theorem ceil8_zero : ceil8 0 = 0 := rfl

/-- `ceil8` is the least number of bytes that hold `n` bits (00_scope R11). -/
theorem ceil8_le_iff (n k : Nat) : ceil8 n ≤ k ↔ n ≤ 8 * k := by
  unfold ceil8; omega

/-- A bit offset below `n` lies in one of the `ceil8(n)` bytes. -/
theorem div_lt_ceil8 {p n : Nat} (h : p < n) : p / 8 < ceil8 n := by
  unfold ceil8; omega

/-- Bit `i`, counted from the most significant, of a packed byte. -/
theorem packByte_bit (bs : List Bool) (j i : Nat) (hi : i < 8) :
    (packByte bs j).getLsbD (7 - i) = bs.getD (8 * j + i) false := by
  have one (b : Bool) (k : Nat) (h : k < 8) : (if b = true then 1#8 else 0#8)[k] = (decide (k = 0) && b) := by
    cases b <;> simp
  interval_cases i <;> simp [packByte, List.range_succ, one]

/-- Two bytes are equal when their bits, counted from the most significant, are. -/
theorem byte_ext {u v : Byte} (h : ∀ i < 8, u.getLsbD (7 - i) = v.getLsbD (7 - i)) : u = v := by
  apply BitVec.eq_of_getLsbD_eq
  intro i hi
  have := h (7 - i) (by omega)
  rwa [show 7 - (7 - i) = i by omega] at this

@[simp] theorem mk_len (bs : List Bool) : (mk bs).len = bs.length := rfl

theorem mk_store_length (bs : List Bool) : (mk bs).store.length = ceil8 bs.length := by simp [mk]

/-- Byte `j` of a packed store. -/
theorem byteAt_mk (bs : List Bool) {j : Nat} (h : j < ceil8 bs.length) : byteAt (mk bs).store j = packByte bs j := by
  simp [byteAt, mk, List.getD, h]

/-- Bit `p` of `mk(s)` is `s[p]` (00_scope R13). -/
theorem bit_mk (bs : List Bool) {p : Nat} (h : p < bs.length) : (mk bs).bit p = bs[p] := by
  unfold BitString.bit bitAt
  rw [byteAt_mk bs (div_lt_ceil8 h), packByte_bit bs _ _ (Nat.mod_lt _ (by decide)), Nat.div_add_mod]
  simp [List.getD, h]

@[simp] theorem bits_length (x : BitString) : x.bits.length = x.len := by simp [BitString.bits]

/-- Element `p` of `bits(x)` is `bit(x, p)` (00_scope R13). -/
@[simp] theorem bits_getElem (x : BitString) (p : Nat) (h : p < x.bits.length) : x.bits[p] = x.bit p := by
  simp [BitString.bits]

/-- `bits(mk(s)) = s` (00_scope R13). -/
@[simp] theorem bits_mk (bs : List Bool) : (mk bs).bits = bs := by
  apply List.ext_getElem
  · simp
  · intro p h1 h2
    simp [bit_mk bs h2]

/-- The padding mask keeps exactly the padding bits of the last byte (20_memory R33). -/
theorem padMask_bit (n i : Nat) (hi : i < 8) : (padMask n).getLsbD (7 - i) = decide (n % 8 ≤ i) := by
  have hr : n % 8 < 8 := Nat.mod_lt _ (by decide)
  unfold padMask
  generalize n % 8 = r at hr
  interval_cases r <;> interval_cases i <;> decide

/-- The keep mask keeps exactly the significant bits of the last byte (20_memory R33). -/
theorem keepMask_bit (n i : Nat) (hi : i < 8) :
    (keepMask n).getLsbD (7 - i) = decide (n % 8 = 0 ∨ i < n % 8) := by
  have hr : n % 8 < 8 := Nat.mod_lt _ (by decide)
  unfold keepMask
  generalize n % 8 = r at hr
  interval_cases r <;> interval_cases i <;> decide

/-- Canonical form, bit by bit: every bit of the store at an offset from `len` on is zero (10_state R17). -/
theorem canonical_iff (x : BitString) :
    x.Canonical ↔ x.store.length = ceil8 x.len ∧ ∀ p, x.len ≤ p → x.bit p = false := by
  constructor
  · rintro ⟨hl, hp⟩
    refine ⟨hl, fun p h => ?_⟩
    unfold BitString.bit bitAt
    by_cases hj : p / 8 < ceil8 x.len
    · have hr : x.len % 8 ≠ 0 := by unfold ceil8 at hj; omega
      have hlast : ceil8 x.len - 1 = p / 8 := by unfold ceil8 at hj ⊢; omega
      have := congrArg (fun v => BitVec.getLsbD v (7 - p % 8)) (hp hr)
      rw [hlast] at this
      simp only [BitVec.getLsbD_and, padMask_bit _ _ (Nat.mod_lt p (by decide : 0 < 8))] at this
      have hle : x.len % 8 ≤ p % 8 := by unfold ceil8 at hj; omega
      simpa [hle] using this
    · simp only [byteAt, List.getD]
      rw [List.getElem?_eq_none (by omega)]
      simp
  · rintro ⟨hl, hp⟩
    refine ⟨hl, fun hr => byte_ext fun i hi => ?_⟩
    rw [BitVec.getLsbD_and, padMask_bit _ _ hi]
    by_cases h : x.len % 8 ≤ i
    · have := hp (8 * (ceil8 x.len - 1) + i) (by unfold ceil8; omega)
      unfold BitString.bit bitAt at this
      rw [show (8 * (ceil8 x.len - 1) + i) / 8 = ceil8 x.len - 1 by omega,
        show (8 * (ceil8 x.len - 1) + i) % 8 = i by omega] at this
      simp [this]
    · simp [h]

/-- `mk` builds canonical BitStrings (00_scope R13, 10_state R17). -/
theorem mk_canonical (bs : List Bool) : (mk bs).Canonical := by
  rw [canonical_iff]
  refine ⟨mk_store_length bs, fun p h => ?_⟩
  unfold BitString.bit bitAt
  by_cases hj : p / 8 < ceil8 bs.length
  · rw [byteAt_mk bs hj, packByte_bit bs _ _ (Nat.mod_lt _ (by decide)), Nat.div_add_mod]
    have : bs.length ≤ p := h
    simp [List.getD, this]
  · simp only [byteAt, List.getD]
    rw [List.getElem?_eq_none (by rw [mk_store_length]; omega)]
    simp

/-- Two canonical BitStrings with the same bits are the same BitString (10_state R18). -/
theorem canonical_ext {x y : BitString} (hx : x.Canonical) (hy : y.Canonical) (hl : x.len = y.len)
    (hb : ∀ p < x.len, x.bit p = y.bit p) : x = y := by
  rw [canonical_iff] at hx hy
  have hs : x.store = y.store := by
    apply List.ext_getElem
    · rw [hx.1, hy.1, hl]
    · intro j h1 h2
      apply byte_ext
      intro i hi
      have e : x.bit (8 * j + i) = y.bit (8 * j + i) := by
        by_cases h : 8 * j + i < x.len
        · exact hb _ h
        · rw [hx.2 _ (by omega), hy.2 _ (by omega)]
      unfold BitString.bit bitAt byteAt at e
      rw [show (8 * j + i) / 8 = j by omega, show (8 * j + i) % 8 = i by omega] at e
      simpa [List.getD, h1, h2] using e
  cases x; cases y
  simp_all

/-- A canonical BitString is determined by its bits: `x = mk(bits(x))` (10_state R18). -/
theorem mk_bits {x : BitString} (hx : x.Canonical) : mk x.bits = x :=
  canonical_ext (mk_canonical _) hx (by simp) fun p hp => by
    have : p < x.bits.length := by simpa using hp
    rw [bit_mk _ this, bits_getElem]

/-- EMPTY is `mk` of no bits and canonical (00_scope R13, 10_state R27). -/
theorem mk_nil : mk [] = BitString.empty := rfl

theorem empty_canonical : BitString.empty.Canonical := by decide

@[simp] theorem bits_empty : BitString.empty.bits = [] := rfl

@[simp] theorem bits_concat (x y : BitString) : (concat x y).bits = x.bits ++ y.bits := by simp [concat]

@[simp] theorem concat_len (x y : BitString) : (concat x y).len = x.len + y.len := by simp [concat]

theorem concat_canonical (x y : BitString) : (concat x y).Canonical := mk_canonical _

@[simp] theorem bits_sub (x : BitString) (s e : Nat) : (sub x s e).bits = (x.bits.drop s).take (e - s) := by simp [sub]

/-- The length of `x[s:e]` for a range inside `x` (40_bitbuffer R75). -/
theorem sub_len {x : BitString} {s e : Nat} (h : e ≤ x.len) : (sub x s e).len = e - s := by
  simp [sub]; omega

theorem sub_len_le (x : BitString) (s e : Nat) : (sub x s e).len ≤ x.len := by
  simp [sub]

theorem sub_canonical (x : BitString) (s e : Nat) : (sub x s e).Canonical := mk_canonical _

/-- Bit `i` of `x[s:e]` is bit `s + i` of `x` (40_bitbuffer R75). -/
theorem bit_sub {x : BitString} {s e i : Nat} (h : e ≤ x.len) (hi : i < e - s) : (sub x s e).bit i = x.bit (s + i) := by
  have h1 : i < ((x.bits.drop s).take (e - s)).length := by simp; omega
  unfold sub
  rw [bit_mk _ h1]
  simp

/-- The number of bytes that `chop` leaves (40_bitbuffer R69). -/
theorem chop_length {t : List Byte} {n : Nat} (h : n ≤ 8 * t.length) : (chop t n).length = ceil8 n := by
  unfold chop ceil8
  split <;> simp <;> omega

/-- Every bit of `chop(t, n)`: that of `t` below `n`, zero from `n` on (40_bitbuffer R70). -/
theorem bitAt_chop {t : List Byte} {n : Nat} (h : n ≤ 8 * t.length) (p : Nat) :
    bitAt (chop t n) p = (decide (p < n) && bitAt t p) := by
  have hlen := chop_length h
  unfold bitAt
  by_cases hj : p / 8 < ceil8 n
  · by_cases hlast : p / 8 = ceil8 n - 1
    · have hb : byteAt (chop t n) (p / 8) = byteAt t (p / 8) &&& keepMask n := by
        have hn : n ≠ 0 := by rintro rfl; simp at hj
        have hlt : (t.take (ceil8 n - 1)).length = ceil8 n - 1 := by
          simp only [List.length_take]; unfold ceil8; omega
        simp [byteAt, chop, hn, List.getD, hlast, hlt]
      rw [hb, BitVec.getLsbD_and, keepMask_bit _ _ (Nat.mod_lt p (by decide)), Bool.and_comm]
      congr 1
      simp only [decide_eq_decide]
      unfold ceil8 at hj hlast
      omega
    · have hn : n ≠ 0 := by rintro rfl; simp at hj
      have hlt : p / 8 < (t.take (ceil8 n - 1)).length := by
        simp only [List.length_take]; unfold ceil8 at *; omega
      have hb : byteAt (chop t n) (p / 8) = byteAt t (p / 8) := by
        simp only [byteAt, chop, hn, if_false, List.getD]
        rw [List.getElem?_append_left hlt, List.getElem?_take_of_lt (by omega)]
      have : p < n := by unfold ceil8 at hj hlast; omega
      simp [hb, this]
  · have h1 : ¬ p < n := fun hp => hj (div_lt_ceil8 hp)
    simp only [byteAt, List.getD]
    rw [List.getElem?_eq_none (by omega)]
    simp [h1]

/-- `chop` builds canonical BitStrings (40_bitbuffer R70 (a)). -/
theorem chop_canonical {t : List Byte} {n : Nat} (h : n ≤ 8 * t.length) : (⟨chop t n, n⟩ : BitString).Canonical := by
  rw [canonical_iff]
  refine ⟨chop_length h, fun p hp => ?_⟩
  have : ¬ p < n := by simpa using hp
  simp [BitString.bit, bitAt_chop h, this]

end Sys2Proof.Machine
end

