-- ==== Sys2Proof/Laws/Codec.lean ====
section
/-! SUPPORT. The pure codec functions: `uint` and `bits_of` are inverse (00_scope R13), the length of a header, and one
lemma for what each pass of a decode loop can do (42_framing R105, R109). -/

namespace Sys2Proof.Machine

/-- `uint` of a list of bits, with a start value. -/
theorem foldl_bits_add (l : List Bool) (a : Nat) :
    l.foldl (fun acc bit => 2 * acc + bit.toNat) a =
      a * 2 ^ l.length + l.foldl (fun acc bit => 2 * acc + bit.toNat) 0 := by
  induction l generalizing a with
  | nil => simp
  | cons b l ih =>
    simp only [List.foldl_cons, List.length_cons, Nat.mul_zero, Nat.zero_add]
    rw [ih, ih b.toNat, pow_succ]
    ring

/-- The bits of `v` from the top, read back, are `v mod 2^n`. -/
theorem foldl_testBit (v n : Nat) :
    ((List.range n).map fun p => v.testBit (n - 1 - p)).foldl (fun acc bit => 2 * acc + bit.toNat) 0 = v % 2 ^ n := by
  induction n with
  | zero => simp [Nat.mod_one]
  | succ n ih =>
    have e : ((List.range (n + 1)).map fun p => v.testBit (n + 1 - 1 - p)) =
        v.testBit n :: ((List.range n).map fun p => v.testBit (n - 1 - p)) := by
      rw [List.range_succ_eq_map, List.map_cons, List.map_map]
      refine congrArg₂ _ (by simp) (List.map_congr_left fun p hp => ?_)
      have := List.mem_range.1 hp
      simp only [Function.comp]
      congr 1
      omega
    rw [e, List.foldl_cons, foldl_bits_add, ih]
    simp only [List.length_map, List.length_range, Nat.mul_zero, Nat.zero_add]
    rw [Nat.mod_pow_succ, Nat.toNat_testBit]
    ring

@[simp] theorem bitsOf_len (v n : Nat) : (bitsOf v n).len = n := by simp [bitsOf]

/-- `uint(bits_of(v, n)) = v` for `v < 2^n` (00_scope R13). -/
theorem uint_bitsOf {v n : Nat} (h : v < 2 ^ n) : uint (bitsOf v n) = v := by
  unfold uint bitsOf
  rw [bits_mk, foldl_testBit, Nat.mod_eq_of_lt h]

/-- `uint(x) < 2^x.len` (00_scope R13). -/
theorem uint_lt (x : BitString) : uint x < 2 ^ x.len := by
  have (l : List Bool) : l.foldl (fun acc bit => 2 * acc + bit.toNat) 0 < 2 ^ l.length := by
    induction l with
    | nil => simp
    | cons b l ih =>
      rw [List.foldl_cons, foldl_bits_add, List.length_cons, pow_succ]
      have : b.toNat ≤ 1 := Bool.toNat_le b
      nlinarith [Nat.two_pow_pos l.length]
  simpa [uint] using this x.bits

/-- A header that can be made has `W + field_width` bits (41_header_codec R90). -/
theorem createHeader_len {length : Int} {W : Nat} {h : BitString} (e : createHeader length W = some h) :
    h.len = W + fieldWidth (numBits length.toNat) := by
  unfold createHeader at e
  split at e
  · cases e
  · dsimp only at e
    split at e
    · cases e
    · cases e; simp

/-- A header that can be made is canonical (70_reset_and_hazards R141). -/
theorem createHeader_canonical {length : Int} {W : Nat} {h : BitString} (e : createHeader length W = some h) :
    h.Canonical := by
  unfold createHeader at e
  split at e
  · cases e
  · dsimp only at e
    split at e
    · cases e
    · cases e; exact concat_canonical _ _

/-- What `read_header` can do (41_header_codec R94): HeaderTruncated with its own offset, or an answer whose payload starts
at least `W` bits on, inside the buffer. -/
theorem readHeader_cases (x : BitString) (o W : Nat) :
    readHeader x o W = .error ⟨.headerTruncated, o⟩ ∨
      ∃ ps pe, readHeader x o W = .ok (ps, pe) ∧ o + W ≤ ps ∧ ps ≤ x.len ∧ ps ≤ pe := by
  unfold readHeader
  split
  · exact .inl rfl
  · dsimp only
    split
    · exact .inr ⟨_, _, rfl, by omega, by omega, by omega⟩
    · split
      · exact .inl rfl
      · exact .inr ⟨_, _, rfl, by omega, by omega, by omega⟩

/-- What one pass of a decode loop can do (42_framing R105, R109): fail with the cursor, or take a canonical chunk and move
the cursor on by at least `W`, inside the buffer (R111). -/
theorem readFrame_cases (x : BitString) (cur W : Nat) :
    readFrame x cur W = .error ⟨.headerTruncated, cur⟩ ∨ readFrame x cur W = .error ⟨.payloadTruncated, cur⟩ ∨
      ∃ ps next, readFrame x cur W = .ok (sub x ps next, next) ∧ cur + W ≤ ps ∧ ps ≤ next ∧ next ≤ x.len := by
  unfold readFrame
  obtain h | ⟨ps, pe, h, h1, h2, h3⟩ := readHeader_cases x cur W
  · exact .inl (by rw [h])
  · rw [h]
    dsimp only
    split
    · exact .inr (.inl rfl)
    · exact .inr (.inr ⟨ps, pe, rfl, h1, h3, by omega⟩)

end Sys2Proof.Machine
end

