-- ==== Sys2Proof/Laws/Config.lean ====
section
/-! SUPPORT. What is known of `MAXBITS`: its range (00_scope R9), and that every value of the range is possible. -/

namespace Sys2Proof

/-- `64 <= MAXBITS` (00_scope R9). -/
theorem Config.le_maxBits : 64 ≤ Config.maxBits := by
  unfold Config.maxBits Config.maxBitsOf; omega

/-- `MAXBITS <= 2^31 - 1` (00_scope R9). -/
theorem Config.maxBits_le : Config.maxBits ≤ 2 ^ 31 - 1 := by
  unfold Config.maxBits Config.maxBitsOf
  have := Nat.mod_lt Config.maxBitsFree (show 0 < 2 ^ 31 - 64 by decide)
  omega

/-- Every legal value is the `MAXBITS` of some free choice (00_scope R9). -/
theorem Config.maxBitsOf_surjective (m : Nat) (h1 : 64 ≤ m) (h2 : m ≤ 2 ^ 31 - 1) : ∃ n, Config.maxBitsOf n = m :=
  ⟨m - 64, by unfold Config.maxBitsOf; omega⟩

end Sys2Proof
end

