-- ==== Sys2Proof/Laws/Decode.lean ====
section
/-! SUPPORT. Fields and words: cutting a word into its fields and putting it together are inverse, and a mask acts field by
field (30_encoding R54, R57). -/

namespace Sys2Proof

/-- The fields of a word made from fields are those fields (30_encoding R54). -/
@[simp] theorem Fields.ofWord_toWord (f : Fields) : Fields.ofWord f.toWord = f := by
  obtain ⟨op, bd, bs1, bs2, w, cnt, a, b⟩ := f
  simp only [Fields.ofWord, Fields.toWord, Fields.mk.injEq]
  refine ⟨?_, ?_, ?_, ?_, ?_, ?_, ?_, ?_⟩ <;>
  · apply BitVec.eq_of_getLsbD_eq
    intro i hi
    simp only [BitVec.getLsbD_extractLsb', BitVec.getLsbD_append, hi, decide_true, Bool.true_and]
    split_ifs <;> first
      | omega
      | (congr 1; omega)

/-- The word made from a word's fields is that word (30_encoding R54). -/
@[simp] theorem Fields.toWord_ofWord (c : CmdWord) : (Fields.ofWord c).toWord = c := by
  apply BitVec.eq_of_getLsbD_eq
  intro i hi
  simp only [Fields.ofWord, Fields.toWord, BitVec.getLsbD_extractLsb', BitVec.getLsbD_append]
  split_ifs <;>
    (rw [decide_eq_true (by omega), Bool.true_and]; congr 1; omega)

/-- Two words are equal when their fields are. -/
theorem Fields.toWord_inj {f g : Fields} : f.toWord = g.toWord ↔ f = g :=
  ⟨fun h => by rw [← f.ofWord_toWord, h, g.ofWord_toWord], fun h => h ▸ rfl⟩

/-- The field-by-field AND. -/
def Fields.and (f g : Fields) : Fields :=
  ⟨f.opcode &&& g.opcode, f.bd &&& g.bd, f.bs1 &&& g.bs1, f.bs2 &&& g.bs2, f.w &&& g.w, f.cnt &&& g.cnt, f.a &&& g.a,
    f.b &&& g.b⟩

/-- A mask acts field by field (30_encoding R57). -/
theorem Fields.and_toWord (f g : Fields) : f.toWord &&& g.toWord = (f.and g).toWord := by
  apply BitVec.eq_of_getLsbD_eq
  intro i _
  simp only [Fields.toWord, Fields.and, BitVec.getLsbD_and, BitVec.getLsbD_append]
  split_ifs <;> rfl

/-- A word under a row's mask and match, field by field (30_encoding R57). -/
theorem Fields.select_iff (f m p : Fields) : f.toWord &&& m.toWord = p.toWord ↔ f.and m = p := by
  rw [Fields.and_toWord, Fields.toWord_inj]

@[simp] theorem regOfField_fieldOfReg (r : BReg) : regOfField (fieldOfReg r) = r := by
  apply Fin.ext
  simp only [regOfField, fieldOfReg, BitVec.toNat_ofNat]
  omega

@[simp] theorem fieldOfReg_regOfField (v : BitVec 4) : fieldOfReg (regOfField v) = v := by
  simp [regOfField, fieldOfReg]

@[simp] theorem fieldOfReg_toNat (r : BReg) : (fieldOfReg r).toNat = r.val := by
  simp only [fieldOfReg, BitVec.toNat_ofNat]
  omega

end Sys2Proof
end

