-- ==== Sys2Proof/Laws/State.lean ====
section
/-! SUPPORT. One lemma per field of State and per update, so that no proof unfolds a record update; then reading a
register after each update. -/

namespace Sys2Proof.Machine

@[simp] theorem State.r0_setReg (s : State) (r : BReg) (x : BitString) :
    (s.setReg r x).r0 = s.r0 := rfl
@[simp] theorem State.r1_setReg (s : State) (r : BReg) (x : BitString) :
    (s.setReg r x).r1 = s.r1 := rfl
@[simp] theorem State.status_setReg (s : State) (r : BReg) (x : BitString) :
    (s.setReg r x).status = s.status := rfl
@[simp] theorem State.einfo_setReg (s : State) (r : BReg) (x : BitString) :
    (s.setReg r x).einfo = s.einfo := rfl
@[simp] theorem State.resetIn_setReg (s : State) (r : BReg) (x : BitString) :
    (s.setReg r x).resetIn = s.resetIn := rfl
@[simp] theorem State.inputs_setReg (s : State) (r : BReg) (x : BitString) :
    (s.setReg r x).inputs = s.inputs := rfl
@[simp] theorem State.dout_setReg (s : State) (r : BReg) (x : BitString) :
    (s.setReg r x).dout = s.dout := rfl

@[simp] theorem State.r0_setRange (s : State) (base : BReg) (out : List BitString) :
    (s.setRange base out).r0 = s.r0 := rfl
@[simp] theorem State.r1_setRange (s : State) (base : BReg) (out : List BitString) :
    (s.setRange base out).r1 = s.r1 := rfl
@[simp] theorem State.status_setRange (s : State) (base : BReg) (out : List BitString) :
    (s.setRange base out).status = s.status := rfl
@[simp] theorem State.einfo_setRange (s : State) (base : BReg) (out : List BitString) :
    (s.setRange base out).einfo = s.einfo := rfl
@[simp] theorem State.resetIn_setRange (s : State) (base : BReg) (out : List BitString) :
    (s.setRange base out).resetIn = s.resetIn := rfl
@[simp] theorem State.inputs_setRange (s : State) (base : BReg) (out : List BitString) :
    (s.setRange base out).inputs = s.inputs := rfl
@[simp] theorem State.dout_setRange (s : State) (base : BReg) (out : List BitString) :
    (s.setRange base out).dout = s.dout := rfl

@[simp] theorem State.b_setR0 (s : State) (v : Scalar) :
    (s.setR0 v).b = s.b := rfl
@[simp] theorem State.r0_setR0 (s : State) (v : Scalar) :
    (s.setR0 v).r0 = v := rfl
@[simp] theorem State.r1_setR0 (s : State) (v : Scalar) :
    (s.setR0 v).r1 = s.r1 := rfl
@[simp] theorem State.status_setR0 (s : State) (v : Scalar) :
    (s.setR0 v).status = s.status := rfl
@[simp] theorem State.einfo_setR0 (s : State) (v : Scalar) :
    (s.setR0 v).einfo = s.einfo := rfl
@[simp] theorem State.resetIn_setR0 (s : State) (v : Scalar) :
    (s.setR0 v).resetIn = s.resetIn := rfl
@[simp] theorem State.inputs_setR0 (s : State) (v : Scalar) :
    (s.setR0 v).inputs = s.inputs := rfl
@[simp] theorem State.dout_setR0 (s : State) (v : Scalar) :
    (s.setR0 v).dout = s.dout := rfl

@[simp] theorem State.b_setR1 (s : State) (v : Scalar) :
    (s.setR1 v).b = s.b := rfl
@[simp] theorem State.r0_setR1 (s : State) (v : Scalar) :
    (s.setR1 v).r0 = s.r0 := rfl
@[simp] theorem State.r1_setR1 (s : State) (v : Scalar) :
    (s.setR1 v).r1 = v := rfl
@[simp] theorem State.status_setR1 (s : State) (v : Scalar) :
    (s.setR1 v).status = s.status := rfl
@[simp] theorem State.einfo_setR1 (s : State) (v : Scalar) :
    (s.setR1 v).einfo = s.einfo := rfl
@[simp] theorem State.resetIn_setR1 (s : State) (v : Scalar) :
    (s.setR1 v).resetIn = s.resetIn := rfl
@[simp] theorem State.inputs_setR1 (s : State) (v : Scalar) :
    (s.setR1 v).inputs = s.inputs := rfl
@[simp] theorem State.dout_setR1 (s : State) (v : Scalar) :
    (s.setR1 v).dout = s.dout := rfl

@[simp] theorem State.b_answer (s : State) (st : Status) (info : Scalar) (out : List Byte) :
    (s.answer st info out).b = s.b := rfl
@[simp] theorem State.r0_answer (s : State) (st : Status) (info : Scalar) (out : List Byte) :
    (s.answer st info out).r0 = s.r0 := rfl
@[simp] theorem State.r1_answer (s : State) (st : Status) (info : Scalar) (out : List Byte) :
    (s.answer st info out).r1 = s.r1 := rfl
@[simp] theorem State.status_answer (s : State) (st : Status) (info : Scalar) (out : List Byte) :
    (s.answer st info out).status = st := rfl
@[simp] theorem State.einfo_answer (s : State) (st : Status) (info : Scalar) (out : List Byte) :
    (s.answer st info out).einfo = info := rfl
@[simp] theorem State.resetIn_answer (s : State) (st : Status) (info : Scalar) (out : List Byte) :
    (s.answer st info out).resetIn = s.resetIn := rfl
@[simp] theorem State.inputs_answer (s : State) (st : Status) (info : Scalar) (out : List Byte) :
    (s.answer st info out).inputs = s.inputs.tail := rfl
@[simp] theorem State.dout_answer (s : State) (st : Status) (info : Scalar) (out : List Byte) :
    (s.answer st info out).dout = some out := rfl

/-- The register written holds the value written (10_state R19). -/
@[simp] theorem State.reg_setReg_self (s : State) (r : BReg) (x : BitString) : (s.setReg r x).reg r = x := by
  simp [State.reg, State.setReg]

/-- Writing one register changes no other (10_state R19). -/
theorem State.reg_setReg_ne (s : State) {r q : BReg} (x : BitString) (h : q ≠ r) : (s.setReg r x).reg q = s.reg q := by
  have : (r : Nat) ≠ q := fun e => h (Fin.ext e.symm)
  simp [State.reg, State.setReg, this]

/-- Reading any register after one was written. -/
theorem State.reg_setReg (s : State) (r q : BReg) (x : BitString) :
    (s.setReg r x).reg q = if q = r then x else s.reg q := by
  split
  · subst_vars; simp
  · exact s.reg_setReg_ne x ‹_›

/-- Reading any register after a range was written (42_framing R106). -/
theorem State.reg_setRange (s : State) (base q : BReg) (out : List BitString) :
    (s.setRange base out).reg q = if base ≤ q then out.getD (q.val - base.val) (s.reg q) else s.reg q := by
  simp [State.reg, State.setRange]

/-- A register of the range holds its element of the sequence (42_framing R106). -/
theorem State.reg_setRange_mem (s : State) (base q : BReg) (out : List BitString) (i : Nat) (hi : i < out.length)
    (hq : q.val = base.val + i) : (s.setRange base out).reg q = out[i] := by
  have h1 : base ≤ q := by simp only [Fin.le_def]; omega
  have h2 : q.val - base.val = i := by omega
  simp [State.reg_setRange, h1, h2, List.getD, hi]

/-- A register outside the range keeps its value (42_framing R106). -/
theorem State.reg_setRange_not_mem (s : State) (base q : BReg) (out : List BitString)
    (h : q.val < base.val ∨ base.val + out.length ≤ q.val) : (s.setRange base out).reg q = s.reg q := by
  rw [State.reg_setRange]
  split
  · rename_i h1
    simp only [Fin.le_def] at h1
    have : out.length ≤ q.val - base.val := by omega
    simp [List.getD, this]
  · rfl

@[simp] theorem State.reg_setR0 (s : State) (v : Scalar) (r : BReg) : (s.setR0 v).reg r = s.reg r := rfl
@[simp] theorem State.reg_setR1 (s : State) (v : Scalar) (r : BReg) : (s.setR1 v).reg r = s.reg r := rfl
@[simp] theorem State.reg_answer (s : State) (st : Status) (info : Scalar) (out : List Byte) (r : BReg) :
    (s.answer st info out).reg r = s.reg r := rfl

/-- Every register is EMPTY after reset (10_state R27). -/
@[simp] theorem State.reg_reset (r : BReg) : State.reset.reg r = BitString.empty := by
  simp [State.reg, State.reset]

/-- The length of a range that exists (42_framing R102). -/
theorem State.range_length (s : State) (base : BReg) (cnt : Nat) (h : base.val + cnt ≤ 16) :
    (s.range base cnt).length = cnt := by
  simp [State.range]; omega

/-- Element `i` of a range is register `base + i` (42_framing R102). -/
theorem State.range_getElem (s : State) (base : BReg) (cnt i : Nat) (hi : i < (s.range base cnt).length)
    (q : BReg) (hq : q.val = base.val + i) : (s.range base cnt)[i] = s.reg q := by
  simp [State.range, State.reg, hq]

/-- Two states with the same registers have equal register arrays. -/
theorem State.b_ext {s t : State} (h : ∀ r, s.reg r = t.reg r) : s.b = t.b := by
  apply Vector.ext
  intro i hi
  exact h ⟨i, hi⟩

end Sys2Proof.Machine
end

