-- ==== Sys2Proof/Laws/Ops.lean ====
section
/-! SUPPORT. What each shared operation can do, said once: the ends of a command as `Completed` and `Failed`, the last test
of the writing commands, and the inversion of each end. -/

namespace Sys2Proof.Machine

/-- Completing answers the one next state. -/
theorem complete_eq (out : List Byte) (s : State) : complete out s = .next (s.answer .ok 0 out) := rfl

/-- Raising answers the one next state. -/
theorem raise_eq (k : ErrorKind) (info : Nat) (s : State) :
    raise k info s = .next (s.answer (.error k) (latch info) []) := rfl

/-- If completing answers `t`, then `t` is the ended command's state. -/
theorem complete_inv {out : List Byte} {s t : State} (h : complete out s = .next t) : t = s.answer .ok 0 out := by
  cases h; rfl

/-- If raising answers `t`, then `t` is the ended command's state. -/
theorem raise_inv {k : ErrorKind} {info : Nat} {s t : State} (h : raise k info s = .next t) :
    t = s.answer (.error k) (latch info) [] := by
  cases h; rfl

/-- A number below `2^32` is what the latch holds. -/
theorem latch_toNat {n : Nat} (h : n < 2 ^ 32) : (latch n).toNat = n := by
  simp only [latch, BitVec.toNat_ofNat]
  exact Nat.mod_eq_of_lt h

/-- A command that ends completed, `u` being its state before the end, has completed. -/
theorem answer_completed {s u : State} (out : List Byte) (hi : u.inputs = s.inputs) (hr : u.resetIn = s.resetIn) :
    Completed s (u.answer .ok 0 out) out := by
  simp [Completed, hi, hr]

/-- A command that raises has failed (60_exceptions R124). -/
theorem raise_failed (k : ErrorKind) {info : Nat} (s : State) (h : info < 2 ^ 32) :
    ∃ t, raise k info s = .next t ∧ Failed s t k info :=
  ⟨_, rfl, by simp [Failed, latch_toNat h]⟩

/-- What `writeWithin` can do: fail for capacity, or complete with the register written. -/
theorem writeWithin_cases (cap : Nat) (bd : BReg) (y : BitString) (s : State) :
    (y.len > cap ∧ writeWithin cap bd y s = raise .capacityError 0 s) ∨
      (y.len ≤ cap ∧ writeWithin cap bd y s = complete [] (s.setReg bd y)) := by
  unfold writeWithin
  split
  · exact .inl ⟨‹_›, rfl⟩
  · exact .inr ⟨by omega, rfl⟩

end Sys2Proof.Machine
end

