-- ==== Sys2Proof/Laws/Exec.lean ====
section
/-! SUPPORT. How every command ends, said once: it raises one error on the state as it was, or it completes on a state that
differs in registers and latches only. -/

namespace Sys2Proof.Machine

/-- What can differ between the state a command starts from and the one it completes on: `B`, `R0` and `R1`. -/
def SamePorts (s u : State) : Prop :=
  u.status = s.status ∧ u.einfo = s.einfo ∧ u.resetIn = s.resetIn ∧ u.inputs = s.inputs ∧ u.dout = s.dout

/-- The two ends of a command. -/
def EndsWell (s : State) (a : Answer) : Prop :=
  (∃ k info, a = raise k info s) ∨ ∃ u out, a = complete out u ∧ SamePorts s u

theorem endsWell_raise (s : State) (k : ErrorKind) (info : Nat) : EndsWell s (raise k info s) := .inl ⟨k, info, rfl⟩

theorem endsWell_complete {s u : State} (out : List Byte) (h : SamePorts s u) : EndsWell s (complete out u) :=
  .inr ⟨u, out, rfl, h⟩

theorem samePorts_setReg (s : State) (r : BReg) (x : BitString) : SamePorts s (s.setReg r x) := by simp [SamePorts]

theorem samePorts_setRange (s : State) (r : BReg) (out : List BitString) : SamePorts s (s.setRange r out) := by
  simp [SamePorts]

theorem endsWell_writeWithin (cap : Nat) (bd : BReg) (y : BitString) (s : State) : EndsWell s (writeWithin cap bd y s) := by
  obtain ⟨-, h⟩ | ⟨-, h⟩ := writeWithin_cases cap bd y s <;> rw [h]
  · exact endsWell_raise _ _ _
  · exact endsWell_complete _ (samePorts_setReg _ _ _)

/-- Every command, legal or not, ends by raising one error or by completing (00_scope R7, R8). -/
theorem exec_endsWell (i : Instr) (s : State) : EndsWell s (exec i s) := by
  cases i with
  | load bd a b =>
    simp only [exec, execLoad, loadAt]
    split
    · exact endsWell_raise _ _ _
    · split
      · exact endsWell_raise _ _ _
      · exact endsWell_complete _ (samePorts_setReg _ _ _)
  | store bs1 => exact endsWell_complete _ (by simp [SamePorts])
  | len bs1 => exact endsWell_complete _ (by simp [SamePorts])
  | slice bd bs1 a b =>
    simp only [exec, execSlice]
    split
    · exact endsWell_raise _ _ _
    · exact endsWell_complete _ (samePorts_setReg _ _ _)
  | concat bd bs1 bs2 => exact endsWell_writeWithin _ _ _ _
  | equal bs1 bs2 => exact endsWell_complete _ (by simp [SamePorts])
  | mkhdr bd a w =>
    simp only [exec, execMkhdr]
    split
    · split
      · exact endsWell_raise _ _ _
      · exact endsWell_complete _ (samePorts_setReg _ _ _)
    · exact endsWell_raise _ _ _
  | rdhdr bs1 a w =>
    simp only [exec, execRdhdr]
    split
    · split
      · exact endsWell_raise _ _ _
      · split
        · exact endsWell_raise _ _ _
        · split
          · exact endsWell_raise _ _ _
          · exact endsWell_complete _ (by simp [SamePorts])
    · exact endsWell_raise _ _ _
  | encch bd bs1 cnt w =>
    simp only [exec, execEncch, encchAt]
    split
    · split
      · exact endsWell_raise _ _ _
      · exact endsWell_writeWithin _ _ _ _
    · exact endsWell_raise _ _ _
  | decch bd bs1 cnt w =>
    simp only [exec, execDecch]
    split
    · split
      · exact endsWell_raise _ _ _
      · exact endsWell_complete _ (samePorts_setRange _ _ _)
    · exact endsWell_raise _ _ _
  | encls bd bs1 cnt w =>
    simp only [exec, execEncls, enclsAt]
    split
    · split
      · exact endsWell_raise _ _ _
      · exact endsWell_writeWithin _ _ _ _
    · exact endsWell_raise _ _ _
  | decls bd bs1 w =>
    simp only [exec, execDecls]
    split
    · split
      · exact endsWell_raise _ _ _
      · split
        · exact endsWell_raise _ _ _
        · exact endsWell_complete _ (by simp [SamePorts])
    · exact endsWell_raise _ _ _

end Sys2Proof.Machine
end

