-- ==== Sys2Proof/Laws/Invariants.lean ====
section
/-! SUPPORT. The register invariant (10_state R20) through each shared operation, so that no proof about it unfolds one; and
what a step can do, said once. -/

namespace Sys2Proof.Machine

/-- A value that a register may hold (10_state R20). -/
def BitString.Fits (x : BitString) : Prop := x.Canonical ∧ x.len ≤ Config.maxBits

theorem empty_fits : BitString.empty.Fits := ⟨empty_canonical, Nat.zero_le _⟩

/-- A slice of a value that fits, fits (40_bitbuffer R77: "the result is never longer than the source"). -/
theorem sub_fits {x : BitString} (h : x.len ≤ Config.maxBits) (s e : Nat) : (sub x s e).Fits :=
  ⟨sub_canonical _ _ _, le_trans (sub_len_le _ _ _) h⟩

/-- A number up to `MAXBITS` fits a 32-bit latch (40_bitbuffer R74). -/
theorem lt_of_le_maxBits {n : Nat} (h : n ≤ Config.maxBits) : n < 2 ^ 32 := by
  have := Config.maxBits_le
  omega

/-- The invariant looks at the registers only. -/
theorem State.Inv.of_reg {s t : State} (h : s.Inv) (e : ∀ r, t.reg r = s.reg r) : t.Inv := fun r => by
  rw [e]; exact h r

theorem State.Inv.setReg {s : State} (h : s.Inv) (r : BReg) {x : BitString} (hx : x.Fits) : (s.setReg r x).Inv := by
  intro q
  rw [State.reg_setReg]
  split
  · exact hx
  · exact h q

theorem State.Inv.setRange {s : State} (h : s.Inv) (r : BReg) {out : List BitString} (hx : ∀ x ∈ out, x.Fits) :
    (s.setRange r out).Inv := by
  intro q
  rw [State.reg_setRange]
  split
  · by_cases hq : q.val - r.val < out.length
    · rw [List.getD_eq_getElem _ _ hq]
      exact hx _ (List.getElem_mem _)
    · rw [List.getD_eq_default _ _ (by omega)]
      exact h q
  · exact h q

theorem State.Inv.setR0 {s : State} (h : s.Inv) (v : Scalar) : (s.setR0 v).Inv := h.of_reg fun _ => State.reg_setR0 _ _ _

theorem State.Inv.setR1 {s : State} (h : s.Inv) (v : Scalar) : (s.setR1 v).Inv := h.of_reg fun _ => State.reg_setR1 _ _ _

theorem State.Inv.answer {s : State} (h : s.Inv) (st : Status) (info : Scalar) (out : List Byte) :
    (s.answer st info out).Inv := h.of_reg fun _ => State.reg_answer _ _ _ _ _

theorem State.Inv.raise {s t : State} (h : s.Inv) {k : ErrorKind} {info : Nat}
    (e : Machine.raise k info s = .next t) : t.Inv := by
  rw [raise_inv e]; exact h.answer _ _ _

theorem State.Inv.complete {u t : State} (h : u.Inv) {out : List Byte} (e : Machine.complete out u = .next t) : t.Inv := by
  rw [complete_inv e]; exact h.answer _ _ _

theorem State.Inv.writeWithin {s t : State} (h : s.Inv) {cap : Nat} {bd : BReg} {y : BitString}
    (hc : cap ≤ Config.maxBits) (hy : y.Canonical) (e : Machine.writeWithin cap bd y s = .next t) : t.Inv := by
  obtain ⟨-, h'⟩ | ⟨hl, h'⟩ := writeWithin_cases cap bd y s <;> rw [h'] at e
  · exact h.raise e
  · exact (h.setReg bd ⟨hy, by omega⟩).complete e

/-- Every chunk that `decode_chunks` gives is a slice of its source (42_framing R106). -/
theorem chunksFrom_fits {x : BitString} {W : Nat} (hx : x.len ≤ Config.maxBits) :
    ∀ k cur out, chunksFrom x W k cur = .ok out → ∀ y ∈ out, y.Fits := by
  intro k
  induction k with
  | zero =>
    intro cur out h
    cases h
    simpa using sub_fits hx _ _
  | succ k ih =>
    intro cur out h
    simp only [chunksFrom] at h
    obtain h1 | h1 | ⟨ps, next, h1, -, -, -⟩ := readFrame_cases x cur W <;> rw [h1] at h
    · cases h
    · cases h
    · dsimp only at h
      split at h
      · cases h
      · rename_i h5
        cases h
        simp only [List.mem_cons, forall_eq_or_imp]
        exact ⟨sub_fits hx _ _, ih _ _ h5⟩

/-- Every chunk that `decode_list` gives is a slice of its source (42_framing R109). -/
theorem framesFrom_fits {x : BitString} {W : Nat} (hx : x.len ≤ Config.maxBits) :
    ∀ k cur out, framesFrom x W k cur = .ok out → ∀ y ∈ out, y.Fits := by
  intro k
  induction k with
  | zero =>
    intro cur out h
    unfold framesFrom at h
    split at h <;> cases h
    simp
  | succ k ih =>
    intro cur out h
    unfold framesFrom at h
    split at h
    · cases h
      simp
    · dsimp only at h
      obtain h1 | h1 | ⟨ps, next, h1, -, -, -⟩ := readFrame_cases x cur W <;> rw [h1] at h
      · cases h
      · cases h
      · dsimp only at h
        split at h
        · cases h
        · rename_i h5
          cases h
          simp only [List.mem_cons, forall_eq_or_imp]
          exact ⟨sub_fits hx _ _, ih _ _ h5⟩

/-- What the encoders give is canonical when the unheaded tail is (42_framing R101, R107). -/
theorem framesThen_canonical {W : Nat} {tail : BitString} (ht : tail.Canonical) {ch : List BitString} {i : Nat}
    {y : BitString} (h : framesThen W tail i ch = .ok y) : y.Canonical := by
  cases ch with
  | nil => cases h; exact ht
  | cons c cs =>
    simp only [framesThen] at h
    split at h
    · cases h
    · split at h
      · cases h
      · cases h; exact concat_canonical _ _

end Sys2Proof.Machine
end

