-- ==== Sys2Proof/Laws/PerInstr.lean ====
section
/-! SUPPORT. The family EncodedRow: the word of every command, whatever its operands, lies in its own row of the opcode
table, reserved fields zero (30_encoding R56, R57). One lemma per constructor. -/

namespace Sys2Proof.Laws

/-- The word of `i` is selected by the row of the table with its opcode (30_encoding R57, R61 steps (1) and (2)). -/
def EncodedRow.Statement (i : Instr) : Prop :=
  ∃ row, rowOf (fieldsOf i).opcode = some row ∧ encode i &&& row.mask = row.pattern

/-- A row whose mask and match are the words of `m` and `p` selects the words whose fields it fixes. -/
theorem encodedRow_of {i : Instr} (row : OpcodeRow) (m p : Fields) (h : rowOf (fieldsOf i).opcode = some row)
    (hm : row.mask = m.toWord) (hp : row.pattern = p.toWord) (hf : (fieldsOf i).and m = p) : EncodedRow.Statement i :=
  ⟨row, h, by rw [hm, hp, encode, Fields.select_iff, hf]⟩

theorem EncodedRow.load (bd : BReg) (a b : Scalar) : EncodedRow.Statement (.load bd a b) :=
  encodedRow_of _ ⟨0xFF, 0, 0xF, 0xF, 0xF, 0xFF, 0, 0⟩ ⟨0x01, 0, 0, 0, 0, 0, 0, 0⟩ rfl rfl rfl (by simp [fieldsOf, Fields.and])

theorem EncodedRow.store (bs1 : BReg) : EncodedRow.Statement (.store bs1) :=
  encodedRow_of _ ⟨0xFF, 0xF, 0, 0xF, 0xF, 0xFF, 0xFFFFFFFF, 0xFFFFFFFF⟩ ⟨0x02, 0, 0, 0, 0, 0, 0, 0⟩ rfl rfl rfl
    (by simp [fieldsOf, Fields.and])

theorem EncodedRow.len (bs1 : BReg) : EncodedRow.Statement (.len bs1) :=
  encodedRow_of _ ⟨0xFF, 0xF, 0, 0xF, 0xF, 0xFF, 0xFFFFFFFF, 0xFFFFFFFF⟩ ⟨0x03, 0, 0, 0, 0, 0, 0, 0⟩ rfl rfl rfl
    (by simp [fieldsOf, Fields.and])

theorem EncodedRow.slice (bd bs1 : BReg) (a b : Scalar) : EncodedRow.Statement (.slice bd bs1 a b) :=
  encodedRow_of _ ⟨0xFF, 0, 0, 0xF, 0xF, 0xFF, 0, 0⟩ ⟨0x04, 0, 0, 0, 0, 0, 0, 0⟩ rfl rfl rfl (by simp [fieldsOf, Fields.and])

theorem EncodedRow.concat (bd bs1 bs2 : BReg) : EncodedRow.Statement (.concat bd bs1 bs2) :=
  encodedRow_of _ ⟨0xFF, 0, 0, 0, 0xF, 0xFF, 0xFFFFFFFF, 0xFFFFFFFF⟩ ⟨0x05, 0, 0, 0, 0, 0, 0, 0⟩ rfl rfl rfl
    (by simp [fieldsOf, Fields.and])

theorem EncodedRow.equal (bs1 bs2 : BReg) : EncodedRow.Statement (.equal bs1 bs2) :=
  encodedRow_of _ ⟨0xFF, 0xF, 0, 0, 0xF, 0xFF, 0xFFFFFFFF, 0xFFFFFFFF⟩ ⟨0x06, 0, 0, 0, 0, 0, 0, 0⟩ rfl rfl rfl
    (by simp [fieldsOf, Fields.and])

theorem EncodedRow.mkhdr (bd : BReg) (a : Scalar) (w : BitVec 4) : EncodedRow.Statement (.mkhdr bd a w) :=
  encodedRow_of _ ⟨0xFF, 0, 0xF, 0xF, 0, 0xFF, 0, 0xFFFFFFFF⟩ ⟨0x10, 0, 0, 0, 0, 0, 0, 0⟩ rfl rfl rfl
    (by simp [fieldsOf, Fields.and])

theorem EncodedRow.rdhdr (bs1 : BReg) (a : Scalar) (w : BitVec 4) : EncodedRow.Statement (.rdhdr bs1 a w) :=
  encodedRow_of _ ⟨0xFF, 0xF, 0, 0xF, 0, 0xFF, 0, 0xFFFFFFFF⟩ ⟨0x11, 0, 0, 0, 0, 0, 0, 0⟩ rfl rfl rfl
    (by simp [fieldsOf, Fields.and])

theorem EncodedRow.encch (bd bs1 : BReg) (cnt : BitVec 8) (w : BitVec 4) : EncodedRow.Statement (.encch bd bs1 cnt w) :=
  encodedRow_of _ ⟨0xFF, 0, 0, 0xF, 0, 0, 0xFFFFFFFF, 0xFFFFFFFF⟩ ⟨0x20, 0, 0, 0, 0, 0, 0, 0⟩ rfl rfl rfl
    (by simp [fieldsOf, Fields.and])

theorem EncodedRow.decch (bd bs1 : BReg) (cnt : BitVec 8) (w : BitVec 4) : EncodedRow.Statement (.decch bd bs1 cnt w) :=
  encodedRow_of _ ⟨0xFF, 0, 0, 0xF, 0, 0, 0xFFFFFFFF, 0xFFFFFFFF⟩ ⟨0x21, 0, 0, 0, 0, 0, 0, 0⟩ rfl rfl rfl
    (by simp [fieldsOf, Fields.and])

theorem EncodedRow.encls (bd bs1 : BReg) (cnt : BitVec 8) (w : BitVec 4) : EncodedRow.Statement (.encls bd bs1 cnt w) :=
  encodedRow_of _ ⟨0xFF, 0, 0, 0xF, 0, 0, 0xFFFFFFFF, 0xFFFFFFFF⟩ ⟨0x22, 0, 0, 0, 0, 0, 0, 0⟩ rfl rfl rfl
    (by simp [fieldsOf, Fields.and])

theorem EncodedRow.decls (bd bs1 : BReg) (w : BitVec 4) : EncodedRow.Statement (.decls bd bs1 w) :=
  encodedRow_of _ ⟨0xFF, 0, 0, 0xF, 0, 0xFF, 0xFFFFFFFF, 0xFFFFFFFF⟩ ⟨0x23, 0, 0, 0, 0, 0, 0, 0⟩ rfl rfl rfl
    (by simp [fieldsOf, Fields.and])

end Sys2Proof.Laws
end

