-- ==== Sys2Proof/Laws/Step.lean ====
section
/-! SUPPORT. What a step can do, said once (00_scope R8, 70_reset_and_hazards R134). -/

namespace Sys2Proof.Machine

/-- The six things a step can be. -/
theorem step_cases (s : State) :
    (s.inputs = [] ∧ step s = waitForHost s) ∨ step s = enterReset s ∨ step s = leaveReset s ∨
      (s.resetIn = true ∧ step s = turnAway s) ∨ (s.resetIn = false ∧ step s = illegal s) ∨
      (s.resetIn = false ∧ ∃ i, step s = exec i s) := by
  unfold step
  split
  · exact .inl ⟨‹_›, rfl⟩
  · exact .inr (.inl rfl)
  · exact .inr (.inr (.inl rfl))
  · split
    · exact .inr (.inr (.inr (.inl ⟨‹_›, rfl⟩)))
    · rename_i h
      have h : s.resetIn = false := by simpa using h
      split
      · exact .inr (.inr (.inr (.inr (.inl ⟨h, rfl⟩))))
      · exact .inr (.inr (.inr (.inr (.inr ⟨h, _, rfl⟩))))

/-- Every register is EMPTY while reset is asserted anew (70_reset_and_hazards R135). -/
theorem enterReset_eq (s : State) :
    ∃ t, enterReset s = .next t ∧ (∀ r, t.reg r = BitString.empty) ∧ t.r0 = 0 ∧ t.r1 = 0 ∧ t.status = .ok ∧ t.einfo = 0 ∧
      t.dout = none ∧ t.resetIn = true ∧ t.inputs = s.inputs.tail := by
  refine ⟨_, rfl, fun r => ?_, rfl, rfl, rfl, rfl, rfl, rfl, rfl⟩
  simpa [State.reg] using State.reg_reset r

end Sys2Proof.Machine
end

