-- ==== Sys2Proof/Machine/Assembly.lean ====
section
/-! DEFINITION. The assembler syntax of a command (30_encoding R63): the text of a line, from the command and its DIN. -/

namespace Sys2Proof.Machine

/-- `Bn`, the register number in decimal (30_encoding R63). -/
def regText (r : BReg) : String := "B" ++ toString r.val

/-- A scalar operand in signed decimal (30_encoding R63). -/
def scalarText (v : Scalar) : String := toString (sext32 v)

/-- `W=n` (30_encoding R63). -/
def widthText (w : BitVec 4) : String := "W=" ++ toString (widthOf w)

/-- A byte as two hex digits (30_encoding R63). -/
def byteText (v : Byte) : String :=
  String.ofList [Nat.digitChar (v.toNat / 16), Nat.digitChar (v.toNat % 16)]

/-- The input bytes in braces, which are the characters 123 and 125 (30_encoding R63). -/
def dinText (din : List Byte) : String :=
  String.singleton (Char.ofNat 123) ++ " ".intercalate (din.map byteText) ++ String.singleton (Char.ofNat 125)

/-- One line of assembler (30_encoding R63): the mnemonic, then the operands separated by commas; the input bytes follow
in a LOAD only (log entry 17). -/
def asmText (i : Instr) (din : List Byte) : String :=
  match i with
  | .load bd nbits nbytes =>
      "LOAD " ++ ", ".intercalate [regText bd, scalarText nbits, scalarText nbytes] ++ " " ++ dinText din
  | .store bs1 => "STORE " ++ regText bs1
  | .len bs1 => "LEN " ++ regText bs1
  | .slice bd bs1 start stop =>
      "SLICE " ++ ", ".intercalate [regText bd, regText bs1, scalarText start, scalarText stop]
  | .concat bd bs1 bs2 => "CONCAT " ++ ", ".intercalate [regText bd, regText bs1, regText bs2]
  | .equal bs1 bs2 => "EQUAL " ++ ", ".intercalate [regText bs1, regText bs2]
  | .mkhdr bd length w => "MKHDR " ++ ", ".intercalate [regText bd, scalarText length, widthText w]
  | .rdhdr bs1 offset w => "RDHDR " ++ ", ".intercalate [regText bs1, scalarText offset, widthText w]
  | .encch bd bs1 cnt w =>
      "ENCCH " ++ ", ".intercalate [regText bd, regText bs1, toString (countOf cnt), widthText w]
  | .decch bd bs1 cnt w =>
      "DECCH " ++ ", ".intercalate [regText bd, regText bs1, toString (countOf cnt), widthText w]
  | .encls bd bs1 cnt w =>
      "ENCLS " ++ ", ".intercalate [regText bd, regText bs1, toString (countOf cnt), widthText w]
  | .decls bd bs1 w => "DECLS " ++ ", ".intercalate [regText bd, regText bs1, widthText w]

end Sys2Proof.Machine
end

