-- ==== Sys2Proof/Tests/Slice0.lean ====
section
/-! SUPPORT. Tests on the spec's own worked values (30_encoding R67, R68; 95_test_vectors), one step each, and for every
statement of Obligations.lean that has hypotheses a concrete state and operands that meet them. -/

namespace Sys2Proof.Tests

open Sys2Proof.Machine

/- ## Helpers -/

/-- The reset state with some registers set. -/
def holding (regs : List (BReg × BitString)) : State := regs.foldl (fun s r => s.setReg r.1 r.2) State.reset

/-- `s` with one command at the port, its word given as in 30_encoding R54. -/
def presented (s : State) (word0 word1 word2 : BitVec 32) (din : List Byte) : State :=
  { s with inputs := [.command ⟨wordOfPieces word0 word1 word2, din⟩] }

/-- The answer is a next state of which `p` holds. -/
def nextIs (a : Answer) (p : State → Bool) : Bool :=
  match a with
  | .next t => p t
  | _ => false

/-- The answer is a failure with this STATUS and EINFO that left the registers, `R0` and `R1` alone. -/
def failsWith (s : State) (a : Answer) (code : BitVec 8) (einfo : Scalar) : Bool :=
  nextIs a fun t => t.response == some ⟨code, einfo, s.r0, s.r1, []⟩ && t.b == s.b

/-- The answer is a completion after which `r` holds `x`. -/
def writes (a : Answer) (r : BReg) (x : BitString) : Bool :=
  nextIs a fun t => t.status == .ok && t.einfo == 0 && t.dout == some [] && t.reg r == x

/-- The answer is a completion with these `R0`, `R1` and DOUT. -/
def gives (a : Answer) (r0 r1 : Scalar) (out : List Byte) : Bool :=
  nextIs a fun t => t.response == some ⟨0x00, 0, r0, r1, out⟩

/-- `24:a5c37e` of 95_test_vectors V16. -/
def wide : BitString := ⟨[0xa5, 0xc3, 0x7e], 24⟩
/-- `3:a0`, chunk a of V30. -/
def chunkA : BitString := ⟨[0xa0], 3⟩
/-- `17:caf080`, chunk c of V30. -/
def chunkC : BitString := ⟨[0xca, 0xf0, 0x80], 17⟩
/-- `30:2e865784`, the chunk encoding of V30. -/
def chunked : BitString := ⟨[0x2e, 0x86, 0x57, 0x84], 30⟩
/-- `42:2e8208e57840`, the list encoding of V31. -/
def listed : BitString := ⟨[0x2e, 0x82, 0x08, 0xe5, 0x78, 0x40], 42⟩
/-- `B0 = 3:a0`, `B1 = EMPTY`, `B2 = 17:caf080`, `B8` and `B9` their two encodings (V30, V31). -/
def scenario : State := holding [(0, chunkA), (2, chunkC), (8, chunked), (9, listed)]

/- ## Well-formedness: one ill-formed term for each check (30_encoding R58) -/

theorem test_wf_width :
    (Instr.mkhdr 4 17 0).wellFormed = false ∧ (Instr.rdhdr 4 0 0).wellFormed = false ∧
    (Instr.encch 8 0 3 0).wellFormed = false ∧ (Instr.decch 4 8 3 0).wellFormed = false ∧
    (Instr.encls 9 0 3 0).wellFormed = false ∧ (Instr.decls 4 9 0).wellFormed = false := by decide

theorem test_wf_range :
    (Instr.encch 0 14 3 4).wellFormed = false ∧ (Instr.encls 0 14 3 4).wellFormed = false ∧
    (Instr.decch 14 8 3 4).wellFormed = false ∧ (Instr.encch 0 0 17 4).wellFormed = false := by decide

theorem test_wf_legal :
    (Instr.encch 14 0 3 4).wellFormed = true ∧ (Instr.encls 0 13 3 15).wellFormed = true ∧
    (Instr.decch 0 8 16 1).wellFormed = true ∧ (Instr.decch 15 8 0 1).wellFormed = true := by decide

/- ## Decoding: the words of 30_encoding R67 and R68 -/

theorem test_decode_load : decode (wordOfPieces 0x01000000 0x00000018 0x00000003) = .ok (.load 0 24 3) := by decide
theorem test_decode_store : decode (wordOfPieces 0x02010000 0 0) = .ok (.store 1) := by decide
theorem test_decode_len : decode (wordOfPieces 0x030F0000 0 0) = .ok (.len 15) := by decide
theorem test_decode_slice : decode (wordOfPieces 0x04100000 0x00000003 0x0000000D) = .ok (.slice 1 0 3 13) := by decide
theorem test_decode_concat : decode (wordOfPieces 0x05312000 0 0) = .ok (.concat 3 1 2) := by decide
theorem test_decode_equal : decode (wordOfPieces 0x06012000 0 0) = .ok (.equal 1 2) := by decide
theorem test_decode_mkhdr : decode (wordOfPieces 0x10400400 0x00000011 0) = .ok (.mkhdr 4 17 4) := by decide
theorem test_decode_rdhdr : decode (wordOfPieces 0x11040400 0 0) = .ok (.rdhdr 4 0 4) := by decide
theorem test_decode_encch : decode (wordOfPieces 0x20800403 0 0) = .ok (.encch 8 0 3 4) := by decide
theorem test_decode_decch : decode (wordOfPieces 0x21480403 0 0) = .ok (.decch 4 8 3 4) := by decide
theorem test_decode_encls : decode (wordOfPieces 0x22900403 0 0) = .ok (.encls 9 0 3 4) := by decide
theorem test_decode_decls : decode (wordOfPieces 0x23490400 0 0) = .ok (.decls 4 9 4) := by decide

/-- R68, each word with the first reason that applies. -/
theorem test_decode_illegal :
    decode (wordOfPieces 0 0 0) = .error .reservedOpcode ∧
    decode (wordOfPieces 0x07000000 0 0) = .error .reservedOpcode ∧
    decode (wordOfPieces 0x02010000 1 0) = .error .reservedField ∧
    decode (wordOfPieces 0x05312400 0 0) = .error .reservedField ∧
    decode (wordOfPieces 0x10400000 0x11 0) = .error .zeroWidth ∧
    decode (wordOfPieces 0x200E0403 0 0) = .error .sourceRange ∧
    decode (wordOfPieces 0x21E80403 0 0) = .error .destinationRange := by decide

/-- The host sends bits 95:88 first (20_memory R36). -/
theorem test_decode_bytes :
    decodeBytes [0x04, 0x10, 0, 0, 0xFF, 0xFF, 0xFF, 0xFF, 0, 0, 0, 4] = .ok (.slice 1 0 (-1) 4) ∧
    decodeBytes [0x04, 0x10] = .error .wrongLength := by decide

/-- The table's numbering: bit 88 is the lowest bit of the opcode (30_encoding R54). -/
theorem test_decode_table_word : decodeTableWord 96 (0x05312 * 2 ^ 76) = some (.concat 3 1 2) := by decide

/-- A word placed for the fetch is run by the next step. -/
theorem test_fetch_word :
    writes (step ((holding [(1, ⟨[0xa0], 5⟩)]).withFetchWord 96 (0x05311 * 2 ^ 76))) 3 ⟨[0xa5, 0x00], 10⟩ = true := by decide

/- ## Functions (95_test_vectors V10, V11, V17, V21, V24, V26) -/

theorem test_status_codes :
    [Status.ok, .error .rangeError, .error .encodingError, .error .headerTruncated, .error .payloadTruncated,
      .error .trailingGarbage, .error .capacityError, .error .illegalCommand].map Status.code =
    [0x00, 0x10, 0x20, 0x31, 0x32, 0x33, 0x40, 0x50] := by decide

theorem test_notation :
    [0, 1, 8, 9, 17].map ceil8 = [0, 1, 1, 2, 3] ∧
    [0, 1, 7, 8, 23].map wide.bit = [true, false, true, true, false] ∧
    binstr chunkA = ['1', '0', '1'] ∧ uint chunkA = 5 ∧ uint BitString.empty = 0 ∧
    bitsOf 17 8 = ⟨[0x11], 8⟩ ∧ bitsOf 3 2 = ⟨[0xc0], 2⟩ ∧ bitsOf 0 0 = BitString.empty ∧ bitsOf 2 4 = ⟨[0x20], 4⟩ ∧
    [1, 2, 3, 4, 5, 6, 7].map keepMask = [0x80, 0xc0, 0xe0, 0xf0, 0xf8, 0xfc, 0xfe] := by decide

theorem test_chop :
    chop [0xff, 0xff] 11 = [0xff, 0xe0] ∧ chop [0xff, 0xff, 0xff] 9 = [0xff, 0x80] ∧ chop [0xab] 8 = [0xab] ∧
    chop [0xab] 0 = [] ∧ chop [0xff] 1 = [0x80] ∧ chop [0xff, 0x12] 8 = [0xff] ∧ chop [0xff, 0xff] 16 = [0xff, 0xff] := by
  decide

theorem test_slice_datapath :
    sliceDatapath wide 3 13 = ⟨[0x2e, 0x00], 10⟩ ∧ sliceDatapath wide 6 10 = ⟨[0x70], 4⟩ ∧
    sliceDatapath wide 8 24 = ⟨[0xc3, 0x7e], 16⟩ := by decide

theorem test_concat_datapath :
    concatDatapath ⟨[0xb0], 5⟩ ⟨[0xe2], 7⟩ = ⟨[0xb7, 0x10], 12⟩ ∧ concatDatapath ⟨[0xaa], 7⟩ ⟨[0x80], 1⟩ = ⟨[0xab], 8⟩ ∧
    concatDatapath ⟨[0xff], 8⟩ ⟨[0x80], 1⟩ = ⟨[0xff, 0x80], 9⟩ := by decide

theorem test_headers :
    createHeader 0 4 = some ⟨[0x00], 4⟩ ∧ createHeader 4 4 = some ⟨[0x34], 8⟩ ∧ createHeader 16 4 = some ⟨[0x41, 0x00], 12⟩ ∧
    createHeader 256 4 = some ⟨[0x50, 0x10, 0x00], 20⟩ ∧ createHeader 2 1 = none ∧ createHeader 255 3 = some ⟨[0x9f, 0xe0], 11⟩ ∧
    createHeader 2147483647 4 = some ⟨[0x67, 0xff, 0xff, 0xff, 0xf0], 36⟩ := by decide

theorem test_asm_text :
    asmText (.slice 1 0 (-1) 4) [] = "SLICE B1, B0, -1, 4" ∧ asmText (.encch 8 0 3 4) [] = "ENCCH B8, B0, 3, W=4" := by
  decide

/- ## One step of every command (95_test_vectors V12 to V36) -/

theorem test_load : writes (step (presented State.reset 0x01200000 0x0B 2 [0xff, 0xff])) 2 ⟨[0xff, 0xe0], 11⟩ = true := by
  decide

theorem test_load_range : failsWith State.reset (step (presented State.reset 0x01100000 9 1 [0xff])) 0x10 0 = true := by decide

theorem test_store :
    gives (step (presented (holding [(8, chunked)]) 0x02080000 0 0 [])) 30 4 [0x2e, 0x86, 0x57, 0x84] = true := by decide

theorem test_len : gives (step (presented (scenario.setR1 7) 0x03090000 0 0 [])) 42 7 [] = true := by decide

theorem test_slice_in_place :
    writes (step (presented (holding [(0, wide)]) 0x04000000 6 0x0A [])) 0 ⟨[0x70], 4⟩ = true := by decide

theorem test_slice_range :
    failsWith (holding [(0, wide)]) (step (presented (holding [(0, wide)]) 0x04100000 0xFFFFFFFF 4 [])) 0x10 0 = true := by
  decide

theorem test_concat :
    writes (step (presented (holding [(1, ⟨[0xa0], 5⟩), (2, ⟨[0xb8, 0x6f, 0xc0], 19⟩)]) 0x05312000 0 0 [])) 3 wide = true := by
  decide

/-- All three operands one register (V22). -/
theorem test_concat_in_place :
    writes (step (presented (holding [(4, ⟨[0x70], 4⟩)]) 0x05444000 0 0 [])) 4 ⟨[0x77], 8⟩ = true := by decide

theorem test_equal :
    gives (step (presented (holding [(4, chunkA), (5, chunkA)]) 0x06045000 0 0 [])) 1 0 [] = true := by decide

/-- The same bytes with another length are not equal (V23). -/
theorem test_equal_length :
    gives (step (presented (holding [(5, chunkA), (6, ⟨[0xa0], 4⟩)]) 0x06056000 0 0 [])) 0 0 [] = true := by decide

theorem test_mkhdr : writes (step (presented State.reset 0x10400400 0x11 0 [])) 4 ⟨[0x41, 0x10], 12⟩ = true := by decide

theorem test_mkhdr_encoding_error :
    failsWith State.reset (step (presented State.reset 0x10C00200 0x10 0 [])) 0x20 0 = true := by decide

theorem test_rdhdr :
    gives (step (presented (holding [(2, ⟨[0x3b, 0xff, 0xe0], 19⟩)]) 0x11020400 0 0 [])) 8 19 [] = true := by decide

theorem test_rdhdr_truncated :
    failsWith (holding [(2, ⟨[0x3b, 0xff, 0xe0], 19⟩)])
      (step (presented (holding [(2, ⟨[0x3b, 0xff, 0xe0], 19⟩)]) 0x11020400 0x10 0 [])) 0x31 16 = true := by decide

theorem test_encch : writes (step (presented scenario 0x20800403 0 0 [])) 8 chunked = true := by decide +kernel

/-- The chunk index goes to EINFO (V30). -/
theorem test_encch_index :
    failsWith (holding [(0, chunkA), (1, chunkC), (2, chunkA)])
      (step (presented (holding [(0, chunkA), (1, chunkC), (2, chunkA)]) 0x20800203 0 0 [])) 0x20 1 = true := by decide

/-- The source lies in the destination range (V32). -/
theorem test_decch_in_place :
    nextIs (step (presented (holding [(8, chunked)]) 0x21880403 0 0 []))
      (fun t => t.status == .ok && t.reg 8 == chunkA && t.reg 9 == BitString.empty && t.reg 10 == chunkC) = true := by decide

theorem test_decch_truncated :
    failsWith (holding [(4, wide), (10, ⟨[0x2e, 0x80], 11⟩)])
      (step (presented (holding [(4, wide), (10, ⟨[0x2e, 0x80], 11⟩)]) 0x214A0403 0 0 [])) 0x31 9 = true := by decide

theorem test_encls : writes (step (presented scenario 0x22900403 0 0 [])) 9 listed = true := by decide +kernel

theorem test_encls_index :
    failsWith (holding [(0, chunkA), (1, chunkA), (2, chunkC)])
      (step (presented (holding [(0, chunkA), (1, chunkA), (2, chunkC)]) 0x22900203 0 0 [])) 0x20 2 = true := by decide

theorem test_decls :
    nextIs (step (presented scenario 0x23A90400 0 0 []))
      (fun t => t.status == .ok && t.reg 10 == chunkA && t.reg 11 == BitString.empty && t.reg 12 == chunkC && t.r0 == 3)
      = true := by decide

/-- A chunk encoding is no list (P4 step 7). -/
theorem test_decls_truncated :
    failsWith (holding [(8, chunked)]) (step (presented (holding [(8, chunked)]) 0x23480400 0 0 [])) 0x31 13 = true := by decide

/-- IllegalCommand outranks RangeError (V36). -/
theorem test_illegal_first :
    failsWith State.reset (step (presented State.reset 0x04100100 0xFFFFFFFF 0 [])) 0x50 0 = true := by decide

/-- Reset with a command in progress (70_reset_and_hazards R134). -/
theorem test_reset :
    nextIs (step { scenario with inputs := [.assertReset (some ⟨wordOfPieces 0x03090000 0 0, []⟩)] })
      (fun t => t.b == State.reset.b && t.resetIn && t.response == none) = true := by decide

/- ## Witnesses: the hypotheses of the statements, met -/

/-- A canonical BitString that fills a register. -/
def full : BitString := ⟨List.replicate (ceil8 Config.maxBits) 0, Config.maxBits⟩

/-- `B1` holds a BitString of `MAXBITS` bits, the other registers are EMPTY. -/
def fullState : State := holding [(1, full)]

theorem full_canonical : full.Canonical := by
  refine ⟨by simp [full], fun _ => ?_⟩
  have h : byteAt full.store (ceil8 full.len - 1) = 0 := by
    simp only [full, byteAt, List.getD_eq_getElem?_getD, List.getElem?_replicate]
    split <;> rfl
  rw [h]; simp

theorem inv_of_small {s : State} (h : ∀ r, (s.reg r).Canonical ∧ (s.reg r).len ≤ 64) : s.Inv := fun r =>
  ⟨(h r).1, (h r).2.trans Config.le_maxBits⟩

theorem scenario_inv : scenario.Inv := inv_of_small (by decide +kernel)

theorem witness_DecodeEncodeRoundTrip : (Instr.encch 14 13 3 15).wellFormed = true ∧ (Instr.decch 13 0 3 1).wellFormed = true ∧
    (Instr.slice 15 0 0xFFFFFFFF 0x80000000).wellFormed = true := by decide

theorem witness_EveryDecodedWordIsItsEncoding : decode (wordOfPieces 0x21D80403 0 0) = .ok (.decch 13 8 3 4) := by decide

theorem witness_LegalWordsAreTheOpcodeTable :
    (∃ i, decode (wordOfPieces 0x200D0403 0 0) = .ok i) ∧ ¬ ∃ i, decode (wordOfPieces 0x200E0403 0 0) = .ok i := by
  refine ⟨⟨.encch 0 13 3 4, by decide⟩, ?_⟩
  rintro ⟨i, h⟩
  have e : decode (wordOfPieces 0x200E0403 0 0) = .error .sourceRange := by decide
  rw [e] at h
  cases h

theorem witness_StepRunsDecodedCommand :
    (presented scenario 0x03090000 0 0 []).inputs = .command ⟨wordOfPieces 0x03090000 0 0, []⟩ :: [] ∧
    (presented scenario 0x03090000 0 0 []).resetIn = false ∧ decode (wordOfPieces 0x03090000 0 0) = .ok (.len 9) := by
  decide +kernel

theorem witness_IllegalWordFails :
    (presented scenario 0x07000000 0 0 [1]).inputs = .command ⟨wordOfPieces 0x07000000 0 0, [1]⟩ :: [] ∧
    (presented scenario 0x07000000 0 0 [1]).resetIn = false ∧
    decode (wordOfPieces 0x07000000 0 0) = .error .reservedOpcode := by decide +kernel

theorem witness_AssertedResetGivesResetState :
    ({ scenario with inputs := [.assertReset (some ⟨0, [1]⟩)] } : State).inputs = .assertReset (some ⟨0, [1]⟩) :: [] := rfl

/-- One state for each clause. -/
theorem witness_MovesThatRunNoCommand :
    ({ presented State.reset 0 0 0 [] with resetIn := true } : State).resetIn = true ∧
    ({ State.reset with resetIn := true, inputs := [.releaseReset] } : State).inputs = .releaseReset :: [] ∧
    State.reset.inputs = [] := ⟨rfl, rfl, rfl⟩

theorem witness_StepKeepsCanonicalForm :
    (presented scenario 0x05302000 0 0 []).Inv ∧ ∃ t, step (presented scenario 0x05302000 0 0 []) = .next t :=
  ⟨inv_of_small (by decide +kernel), ⟨_, rfl⟩⟩

theorem witness_StepKeepsEinfoRule :
    (presented scenario 0x23480400 0 0 []).Inv ∧ (presented scenario 0x23480400 0 0 []).EinfoRule ∧
    ∃ t, step (presented scenario 0x23480400 0 0 []) = .next t :=
  ⟨inv_of_small (by decide +kernel), rfl, ⟨_, rfl⟩⟩

/-- Reset is held while a command is presented. -/
theorem witness_StepKeepsHeldReset :
    ∃ s t : State, s.resetIn = true ∧ s.AtReset ∧ step s = .next t ∧ t.resetIn = true :=
  ⟨{ presented State.reset 0x03090000 0 0 [] with resetIn := true }, _, rfl,
    ⟨by decide +kernel, rfl, rfl, rfl, rfl, rfl⟩, rfl, rfl⟩

theorem witness_ResultsIgnoreLatches : writesR0 (.store 8) ∧ writesR1 (.store 8) ∧
    ∃ t, exec (.store 8) scenario = .next t ∧ t.status = .ok := ⟨trivial, trivial, _, rfl, rfl⟩

theorem witness_OnlyLoadReadsDin :
    (∀ bd a b, Instr.store 8 ≠ .load bd a b) ∧ ∃ t, exec (.store 8) scenario = .next t := ⟨by simp, _, rfl⟩

theorem witness_OnlyStoreGivesDout :
    (∃ t, exec (.store 8) scenario = .next t) ∧ ∃ t, exec (.mkhdr 0 (-1) 4) scenario = .next t ∧ t.dout = some [] :=
  ⟨⟨_, rfl⟩, ⟨_, rfl, rfl⟩⟩

theorem witness_FailingCommandChangesNothingElse :
    (∃ t, exec (.mkhdr 0 (-1) 4) scenario = .next t ∧ t.status ≠ .ok) ∧
    ∃ t, step (presented State.reset 0x07000000 0 0 []) = .next t ∧ t.status ≠ .ok :=
  ⟨⟨_, rfl, by decide⟩, ⟨_, rfl, by decide⟩⟩

theorem witness_ErrorsOfEachCommand : (Instr.mkhdr 0 (-1) 4).wellFormed = true ∧
    ∃ t, exec (.mkhdr 0 (-1) 4) scenario = .next t ∧ t.status = .error .encodingError := ⟨by decide, _, rfl, rfl⟩

/-- The registers on both sides of DECCH's destinations, and the latches. -/
theorem witness_FrameOfEveryCommand :
    (∃ t, exec (.decch 4 8 3 4) scenario = .next t) ∧ ¬ mayWrite (.decch 4 8 3 4) 3 ∧ ¬ mayWrite (.decch 4 8 3 4) 7 ∧
    ¬ writesR0 (.decch 4 8 3 4) ∧ ¬ writesR1 (.decch 4 8 3 4) :=
  ⟨⟨_, rfl⟩, by simp [mayWrite], by simp [mayWrite], by simp [writesR0], by simp [writesR1]⟩

/-- Seventeen and three bits do not fit 19 and fit 20. -/
theorem witness_LargerBlockKeepsResults :
    nextIs (execAt 19 (.concat 3 0 2) scenario) (fun t => t.status == .error .capacityError) = true ∧
    nextIs (execAt 20 (.concat 3 0 2) scenario) (fun t => t.status == .ok) = true := by decide +kernel

/-- `nbits = 8 * nbytes`, and no bits at all from two bytes. -/
theorem witness_LoadCompletes :
    (0 ≤ sext32 24 ∧ 0 ≤ sext32 3 ∧ ((presented State.reset 0 0 0 [1, 2, 3]).din.length : Int) = sext32 3 ∧
      sext32 24 ≤ 8 * sext32 3 ∧ sext32 24 ≤ Config.maxBits) ∧
    (0 ≤ sext32 0 ∧ ((presented State.reset 0 0 0 [1, 2]).din.length : Int) = sext32 2 ∧ sext32 0 ≤ 8 * sext32 2 ∧
      sext32 0 ≤ Config.maxBits) := by
  have h := Config.le_maxBits
  have a : sext32 24 = 24 := by decide
  have b : sext32 0 = 0 := by decide
  refine ⟨⟨by decide, by decide, by decide, by decide, ?_⟩, by decide, by decide, by decide, ?_⟩ <;> omega

/-- One state and operands for each reason of RangeError. -/
theorem witness_LoadFails_range :
    sext32 (-1) < 0 ∧ sext32 0x80000000 < 0 ∧ ((presented State.reset 0 0 0 [1]).din.length : Int) ≠ sext32 2 ∧
    sext32 9 > 8 * sext32 1 := by decide

/-- The clause on CapacityError, for every `MAXBITS` that a 32-bit operand can exceed. -/
theorem witness_LoadFails_capacity (h : Config.maxBits < 2 ^ 31 - 1) :
    ∃ (nbits nbytes : Scalar) (s : State), ¬ (sext32 nbits < 0 ∨ sext32 nbytes < 0 ∨
      (s.din.length : Int) ≠ sext32 nbytes ∨ sext32 nbits > 8 * sext32 nbytes) ∧ sext32 nbits > Config.maxBits := by
  have e : ∀ n : Nat, n < 2 ^ 31 → sext32 (BitVec.ofNat 32 n) = n := fun n hn => by
    unfold sext32
    rw [BitVec.toInt_eq_toNat_of_lt (by simp; omega)]
    simp
    omega
  refine ⟨BitVec.ofNat 32 (Config.maxBits + 1), BitVec.ofNat 32 (ceil8 (Config.maxBits + 1)),
    presented State.reset 0 0 0 (List.replicate (ceil8 (Config.maxBits + 1)) 0), ?_, ?_⟩
  · have l : (presented State.reset 0 0 0 (List.replicate (ceil8 (Config.maxBits + 1)) 0)).din.length =
        ceil8 (Config.maxBits + 1) := List.length_replicate
    rw [l, e _ (by omega), e _ (by unfold ceil8; omega)]
    unfold ceil8
    omega
  · rw [e _ (by omega)]
    omega

theorem witness_StoreCompletes : scenario.Inv := scenario_inv

theorem witness_LenCompletes : scenario.Inv := scenario_inv

/-- A range inside, and the empty range at the end. -/
theorem witness_SliceCompletes :
    (0 ≤ sext32 3 ∧ sext32 3 ≤ sext32 13 ∧ sext32 13 ≤ (scenario.reg 9).len) ∧
    (sext32 42 ≤ sext32 42 ∧ sext32 42 ≤ (scenario.reg 9).len) := by decide +kernel

/-- Each reason, and a SLICE that fails. -/
theorem witness_SliceRangeError :
    (sext32 (-1) < 0 ∧ sext32 4 < sext32 5 ∧ sext32 43 > (scenario.reg 9).len) ∧
    failsWith scenario (exec (.slice 3 9 0 43) scenario) 0x10 0 = true := by decide +kernel

theorem witness_ConcatCompletes : (scenario.reg 0).len + (scenario.reg 2).len ≤ Config.maxBits ∧
    (fullState.reg 1).len + (fullState.reg 0).len ≤ Config.maxBits := by
  constructor
  · exact (show (scenario.reg 0).len + (scenario.reg 2).len ≤ 64 by decide +kernel).trans Config.le_maxBits
  · simp [fullState, holding, full]
    rfl

theorem fullState_inv : fullState.Inv := fun r => by
  by_cases h : r = 1
  · subst h
    exact ⟨full_canonical, Nat.le_refl _⟩
  · have e : fullState.reg r = BitString.empty := by
      simp only [fullState, holding, List.foldl]
      rw [State.reg_setReg_ne _ _ h]
      simp [State.reg, State.reset]
    rw [e]
    exact ⟨by decide, Nat.zero_le _⟩

theorem witness_ConcatCapacityError : fullState.Inv ∧ (fullState.reg 1).len + (fullState.reg 1).len > Config.maxBits := by
  refine ⟨fullState_inv, ?_⟩
  have h := Config.le_maxBits
  have e : (fullState.reg 1).len = Config.maxBits := rfl
  omega

/-- Equal registers, and registers that differ in the length. -/
theorem witness_EqualCompletes :
    (scenario.reg 1).len = (scenario.reg 3).len ∧ ¬ (scenario.reg 0).len = (scenario.reg 1).len := by decide +kernel

theorem witness_ChopKeepsExactlyTheBits :
    24 ≤ 8 * wide.store.length ∧ 0 ≤ 8 * ([] : List Byte).length ∧ wide.Canonical ∧ chunkC.Canonical := by decide

theorem witness_SliceDatapathMeetsContract : wide.Canonical ∧ 3 ≤ 13 ∧ 13 ≤ wide.len ∧ 24 ≤ wide.len := by decide

theorem witness_ConcatDatapathMeetsContract : chunkA.Canonical ∧ chunkC.Canonical ∧ BitString.empty.Canonical := by decide

theorem witness_ByteEqualityMeetsContract : chunkA.Canonical ∧ chunkC.Canonical := by decide

/-- The ranges of each law, at their ends too. -/
theorem witness_BitBufferLaws :
    wide.Canonical ∧ 5 ≤ wide.len ∧ 24 ≤ wide.len ∧ (6 ≤ 22 ∧ 22 ≤ wide.len ∧ 3 ≤ 16 ∧ 16 ≤ 22 - 6) := by decide

/-- Three bytes (V14), and none. -/
theorem witness_RawBytesRoundTrip :
    (∃ s : State, s.resetIn = false ∧ 8 * wide.store.length ≤ Config.maxBits ∧ s.inputs =
      .command ⟨encode (.load 0 (BitVec.ofNat 32 (8 * wide.store.length)) (BitVec.ofNat 32 wide.store.length)), wide.store⟩ ::
        .command ⟨encode (.store 0), [1]⟩ :: []) ∧ 8 * ([] : List Byte).length ≤ Config.maxBits :=
  ⟨⟨{ State.reset with inputs := _ }, rfl, (show 24 ≤ 64 by decide).trans Config.le_maxBits, rfl⟩, Nat.zero_le _⟩

/-- `v = 1`, `v = 2^4`, `v = 2^4 - 1`. -/
theorem witness_NumBitsIsTheLeastWidth :
    (1 ≤ 1 ∧ 2 ^ (1 - 1) ≤ 1 ∧ 1 < 2 ^ 1 ∧ numBits 1 = 1) ∧ (2 ^ (5 - 1) ≤ 16 ∧ 16 < 2 ^ 5 ∧ numBits 16 = 5) ∧
    (2 ^ (4 - 1) ≤ 15 ∧ 15 < 2 ^ 4 ∧ numBits 15 = 4) := by decide

/-- `h = 1`, a power of two, and the number after it. -/
theorem witness_FieldWidthIsTheLeastPowerOfTwo :
    (1 ≤ 2 ^ 0 ∧ fieldWidth 1 = 1) ∧ (8 ≤ 2 ^ 3 ∧ fieldWidth 8 = 8) ∧ (9 ≤ 2 ^ 4 ∧ fieldWidth 9 = 16) := by decide

theorem witness_SizeCodeInvertsFieldWidth : sizeCode (2 ^ 0) = 1 ∧ sizeCode (2 ^ 3) = 4 ∧ widthOfCode 1 = 2 ^ (1 - 1) := by decide

theorem witness_HeaderRoundTrip : 1 ≤ 4 ∧ 4 ≤ 15 ∧ createHeader 17 4 = some ⟨[0x41, 0x10], 12⟩ ∧
    createHeader 1 1 = some ⟨[0xc0], 2⟩ ∧ createHeader 0 15 = some ⟨[0, 0], 15⟩ := by decide

/-- The header of 3, and the longer one with an 8-bit field that the decoder accepts too (V26). -/
theorem witness_NoHeaderBeginsAnother :
    (createHeader 3 4 = some ⟨[0x2c], 6⟩ ∧ (⟨[0x2c], 6⟩ : BitString).bits <+: (⟨[0x2c], 6⟩ : BitString).bits) ∧
    ((⟨[0x40, 0x30], 12⟩ : BitString).Canonical ∧ readHeader ⟨[0x40, 0x30], 12⟩ 0 4 = .ok (12, 12 + (3 : Int).toNat)) ∧
    readHeader ⟨[0x2c], 6⟩ 0 4 = .ok (6, 6 + (3 : Int).toNat) := by decide

/-- A `size_code` that just fits `W = 2`. -/
theorem witness_MkhdrCompletes :
    (2#4 ≠ 0 ∧ 0 ≤ sext32 15 ∧ sizeCode (fieldWidth (numBits (sext32 15).toNat)) ≤ 2 ^ (2#4).toNat - 1) ∧
    (1#4 ≠ 0 ∧ 0 ≤ sext32 0 ∧ sizeCode (fieldWidth (numBits (sext32 0).toNat)) ≤ 2 ^ (1#4).toNat - 1) := by decide

/-- A negative length, and the first `size_code` that does not fit `W = 2`. -/
theorem witness_MkhdrEncodingError :
    2#4 ≠ 0 ∧ sext32 (-1) < 0 ∧ sizeCode (fieldWidth (numBits (sext32 16).toNat)) > 2 ^ (2#4).toNat - 1 := by decide

/-- The end offset is exactly `2^32 - 1`: a 36-bit header for `2^32 - 37`. -/
theorem witness_RdhdrCompletes :
    gives (exec (.rdhdr 0 0 4) (holding [(0, ⟨[0x6f, 0xff, 0xff, 0xfd, 0xb0], 36⟩)])) 36 0xFFFFFFFF [] = true ∧
    widthOfCode (uint (sub ⟨[0x6f, 0xff, 0xff, 0xfd, 0xb0], 36⟩ 0 4)) = 32 ∧
    uint (sub ⟨[0x6f, 0xff, 0xff, 0xfd, 0xb0], 36⟩ 4 36) = 2 ^ 32 - 1 - 36 := by decide +kernel

/-- Each clause: an offset one past the register, a header cut by one bit, an end offset of `2^32`. -/
theorem witness_RdhdrFails :
    failsWith scenario (exec (.rdhdr 9 43 4) scenario) 0x10 0 = true ∧
    failsWith scenario (exec (.rdhdr 9 42 4) scenario) 0x31 42 = true ∧
    failsWith (holding [(0, ⟨[0x6f, 0xff, 0xff, 0xfd, 0xc0], 36⟩)])
      (exec (.rdhdr 0 0 4) (holding [(0, ⟨[0x6f, 0xff, 0xff, 0xfd, 0xc0], 36⟩)])) 0x32 0 = true := by decide +kernel

theorem witness_EncodersGiveFramesInOrder :
    List.Forall₂ (fun c h => createHeader (BitString.len c) 4 = some h) [chunkA, BitString.empty]
      [⟨[0x2c], 6⟩, ⟨[0x00], 4⟩] ∧ chunkC.Canonical := by
  refine ⟨?_, by decide⟩
  exact .cons (by decide) (.cons (by decide) .nil)

theorem witness_EncodersFailAtTheFirstBadChunk :
    (∀ d ∈ [chunkA], createHeader d.len 2 ≠ none) ∧ createHeader chunkC.len 2 = none ∧ [chunkA] ≠ [] := by decide

/-- The loop's two ends: the exact number of passes, and the cursor at the end. -/
theorem witness_DecodeListMeetsItsLoop :
    1 ≤ 4 ∧ 0 ≤ listed.len ∧ listed.len - 0 ≤ 42 ∧ 42 ≤ listed.len ∧ listed.len - 42 ≤ 0 := by decide

theorem witness_ChunkRoundTrip : 1 ≤ 4 ∧ 4 ≤ 15 ∧ (∀ c ∈ [chunkA, BitString.empty, chunkC], c.Canonical) ∧
    encodeChunks [chunkA, BitString.empty, chunkC] 4 = .ok chunked := by decide +kernel

theorem witness_ListRoundTrip : 1 ≤ 4 ∧ 4 ≤ 15 ∧ (∀ c ∈ [chunkA, BitString.empty, chunkC], c.Canonical) ∧
    encodeList [chunkA, BitString.empty, chunkC] 4 = .ok listed := by decide +kernel

/-- The cut at the first and at the last bit of the second frame. -/
theorem witness_CutChunkEncodingFails :
    [chunkC] ≠ [] ∧ encodeChunks ([chunkA] ++ BitString.empty :: [chunkC]) 4 = .ok chunked ∧
    encodeList [chunkA] 4 = .ok ⟨[0x2e, 0x80], 9⟩ ∧ frame BitString.empty 4 = some ⟨[0x00], 4⟩ ∧
    9 ≤ 9 ∧ 12 < 9 + 4 := by decide +kernel

/-- A source range that ends at `B15`, and one of no registers. -/
theorem witness_EncchCompletes :
    4#4 ≠ 0 ∧ (13 : BReg).val + (3#8).toNat ≤ 16 ∧
    (∃ y, encodeChunks (scenario.range 13 (3#8).toNat) (4#4).toNat = .ok y ∧ y.len ≤ Config.maxBits) ∧
    ∃ y, encodeChunks (scenario.range 15 (0#8).toNat) (4#4).toNat = .ok y ∧ y.len ≤ Config.maxBits :=
  ⟨by decide, by decide, ⟨⟨[0x00], 8⟩, by decide +kernel, (show 8 ≤ 64 by decide).trans Config.le_maxBits⟩,
    ⟨BitString.empty, by decide +kernel, Nat.zero_le _⟩⟩

theorem witness_EnclsCompletes :
    4#4 ≠ 0 ∧ (13 : BReg).val + (3#8).toNat ≤ 16 ∧
    ∃ y, encodeList (scenario.range 13 (3#8).toNat) (4#4).toNat = .ok y ∧ y.len ≤ Config.maxBits :=
  ⟨by decide, by decide, ⟨⟨[0x00, 0x00], 12⟩, by decide +kernel, (show 12 ≤ 64 by decide).trans Config.le_maxBits⟩⟩

theorem witness_EncodeCommandsFail_encoding :
    encodeChunks ((holding [(0, chunkA), (1, chunkC)]).range 0 (3#8).toNat) (2#4).toNat = .error ⟨.encodingError, 1⟩ ∧
    encodeList ((holding [(0, chunkA), (1, chunkA), (2, chunkC)]).range 0 (3#8).toNat) (2#4).toNat =
      .error ⟨.encodingError, 2⟩ := by decide +kernel

/-- `B0`, EMPTY, and `B1`, of `MAXBITS` bits: the result is longer by the headers. -/
theorem witness_EncodeCommandsFail_capacity :
    (∃ y, encodeChunks (fullState.range 0 (2#8).toNat) (4#4).toNat = .ok y ∧ y.len > Config.maxBits) ∧
    ∃ y, encodeList (fullState.range 0 (2#8).toNat) (4#4).toNat = .ok y ∧ y.len > Config.maxBits := by
  have r : fullState.range 0 (2#8).toNat = [BitString.empty, full] := rfl
  have h0 : createHeader 0 4 = some ⟨[0x00], 4⟩ := by decide
  have b : numBits Config.maxBits ≤ 31 := by
    have h := Config.maxBits_le
    have h' := Config.le_maxBits
    have := (Nat.log2_lt (n := Config.maxBits) (k := 31) (by omega)).2 (by omega)
    unfold numBits
    split <;> omega
  have sc : ∀ k ≤ 31, ¬ sizeCode (fieldWidth k) > 2 ^ 4 - 1 := by decide
  have h1 : ∃ h, createHeader (Config.maxBits : Int) 4 = some h := by
    unfold createHeader
    rw [if_neg (by omega)]
    exact ⟨_, if_neg (sc _ b)⟩
  obtain ⟨h, h1⟩ := h1
  rw [r]
  constructor
  · refine ⟨concat (concat ⟨[0x00], 4⟩ BitString.empty) full, ?_, by simp [full]⟩
    simp [encodeChunks, framesThen, frame, BitString.empty, h0]
  · refine ⟨concat (concat ⟨[0x00], 4⟩ BitString.empty) (concat (concat h full) BitString.empty), ?_, by simp [full]; omega⟩
    simp [encodeList, framesThen, frame, BitString.empty, h0, full, h1]

/-- Destinations that end at `B15`, and none. -/
theorem witness_DecchCompletes :
    4#4 ≠ 0 ∧ (13 : BReg).val + (3#8).toNat ≤ 16 ∧
    decodeChunks (scenario.reg 8) (3#8).toNat (4#4).toNat = .ok [chunkA, BitString.empty, chunkC] ∧
    decodeChunks (scenario.reg 1) (0#8).toNat (4#4).toNat = .ok [] := by decide +kernel

theorem witness_DeclsCompletes :
    4#4 ≠ 0 ∧ decodeList (scenario.reg 9) (4#4).toNat = .ok [chunkA, BitString.empty, chunkC] ∧ (13 : BReg).val + 3 ≤ 16 ∧
    decodeList (scenario.reg 1) (4#4).toNat = .ok [] := by decide +kernel

/-- Each clause: TrailingGarbage, a cut header, a list that is none, and chunks past `B15`. -/
theorem witness_DecodeCommandsFail :
    scenario.Inv ∧ decodeChunks (scenario.reg 8) (0#8).toNat (4#4).toNat = .error ⟨.trailingGarbage, 0⟩ ∧
    decodeChunks (scenario.reg 0) (2#8).toNat (4#4).toNat = .error ⟨.headerTruncated, 0⟩ ∧
    decodeList (scenario.reg 8) (4#4).toNat = .error ⟨.headerTruncated, 13⟩ ∧
    decodeList (scenario.reg 9) (4#4).toNat = .ok [chunkA, BitString.empty, chunkC] ∧ (14 : BReg).val + 3 > 16 :=
  ⟨scenario_inv, by decide +kernel, by decide +kernel, by decide +kernel, by decide +kernel, by decide⟩

/-- The registers of a source range that ends at `B15`. -/
theorem witness_EncchCompletes_sources : (15 : BReg).val = (13 : BReg).val + 2 ∧ 2 < (3#8).toNat := by decide

/-- A command that fails, and a word that is no command. -/
theorem witness_ResponseShowsTheStatusCode :
    failsWith scenario (step (presented scenario 0x21480400 0 0 [])) 0x33 0 = true ∧
    failsWith scenario (step (presented scenario 0x07000000 0 0 [])) 0x50 0 = true ∧
    (presented scenario 0x21480400 0 0 []).resetIn = false := by decide +kernel

theorem witness_PseudoCommands : scenario.Inv ∧ scenario.din = [] := ⟨scenario_inv, by decide +kernel⟩

end Sys2Proof.Tests
end

/-! The scope of the block (00_scope R8, R9): a step on a legal word is its command, every step and every command answers
a next state, and a larger `MAXBITS` only turns CapacityError outcomes into completions. -/

namespace Sys2Proof.Machine

/-- Settles O6: the move at the port is a command, reset is released, and the word decodes. -/
theorem stepRunsDecodedCommand : Obligations.StepRunsDecodedCommand := by
  intro s request later i hmove hreset hword
  simp only [step, hmove, hreset, hword, Bool.false_eq_true, if_false]

/-! ### Every answer is a next state -/

/-- Raising and completing both answer a next state. -/
theorem EndsWell.next {s : State} {a : Answer} (h : EndsWell s a) : ∃ t, a = .next t := by
  obtain ⟨k, info, rfl⟩ | ⟨u, out, rfl, -⟩ := h
  · exact ⟨_, raise_eq k info s⟩
  · exact ⟨_, complete_eq out u⟩

theorem exec_answers_next (i : Instr) (s : State) : ∃ t, exec i s = .next t := (exec_endsWell i s).next

theorem step_answers_next (s : State) : ∃ t, step s = .next t := by
  obtain ⟨-, h⟩ | h | h | ⟨-, h⟩ | ⟨-, h⟩ | ⟨-, i, h⟩ := step_cases s <;> rw [h]
  · exact ⟨s, rfl⟩ -- the block waits
  · exact ⟨_, rfl⟩ -- reset is asserted
  · exact ⟨_, rfl⟩ -- reset is released
  · exact ⟨_, rfl⟩ -- a command is turned away during reset
  · exact (endsWell_raise s .illegalCommand 0).next
  · exact exec_answers_next i s

/-- Settles O8: a step is one of six things, each of which answers a next state, and every command ends by raising or by
completing. -/
theorem everyStepAnswersNext : Obligations.EveryStepAnswersNext := ⟨step_answers_next, exec_answers_next⟩

/-! ### Two sizes of block (60_exceptions R122)

Only the last test of LOAD, CONCAT, ENCCH and ENCLS looks at `MAXBITS`. `Relaxes a b` says what a larger `MAXBITS` may make
of the answer `a`; each of the four commands keeps it, and the other eight give the same answer on both blocks. -/

/-- The answer `b` is the answer `a`, or a completion in place of a CapacityError. -/
def Relaxes (a b : Answer) : Prop :=
  b = a ∨ ∃ s u info out, a = raise .capacityError info s ∧ b = complete out u

theorem Relaxes.refl (a : Answer) : Relaxes a a := .inl rfl

/-- What `Relaxes` says of the two states answered. -/
theorem Relaxes.next {t u : State} (h : Relaxes (.next t) (.next u)) :
    (t.status ≠ .error .capacityError → u = t) ∧ (t.status = .error .capacityError → u = t ∨ u.status = .ok) := by
  obtain hsame | ⟨s, v, info, out, hraise, hcomplete⟩ := h
  · cases hsame
    exact ⟨fun _ => rfl, fun _ => .inl rfl⟩
  · have ht := raise_inv hraise.symm
    have hu := complete_inv hcomplete.symm
    simp [ht, hu]

section
variable {cap larger : Nat} (hcap : cap ≤ larger)
include hcap

theorem writeWithin_relaxes (bd : BReg) (y : BitString) (s : State) :
    Relaxes (writeWithin cap bd y s) (writeWithin larger bd y s) := by
  obtain ⟨hover, hl⟩ | ⟨-, hl⟩ := writeWithin_cases larger bd y s <;>
    obtain ⟨-, hc⟩ | ⟨hfits, hc⟩ := writeWithin_cases cap bd y s <;> rw [hl, hc]
  · exact .refl _
  · omega
  · exact .inr ⟨_, _, _, _, rfl, rfl⟩
  · exact .refl _

theorem loadAt_relaxes (bd : BReg) (nbits nbytes : Scalar) (s : State) :
    Relaxes (loadAt cap bd nbits nbytes s) (loadAt larger bd nbits nbytes s) := by
  unfold loadAt
  split
  · exact .refl _
  · by_cases hl : (sext32 nbits).toNat > larger
    · rw [if_pos hl, if_pos (by omega)]
      exact .refl _
    · rw [if_neg hl]
      split
      · exact .inr ⟨_, _, _, _, rfl, rfl⟩
      · exact .refl _

theorem encchAt_relaxes (bd bs1 : BReg) (cnt : BitVec 8) (w : BitVec 4) (s : State) :
    Relaxes (encchAt cap bd bs1 cnt w s) (encchAt larger bd bs1 cnt w s) := by
  unfold encchAt
  split
  · split
    · exact .refl _
    · exact writeWithin_relaxes hcap _ _ _
  · exact .refl _

theorem enclsAt_relaxes (bd bs1 : BReg) (cnt : BitVec 8) (w : BitVec 4) (s : State) :
    Relaxes (enclsAt cap bd bs1 cnt w s) (enclsAt larger bd bs1 cnt w s) := by
  unfold enclsAt
  split
  · split
    · exact .refl _
    · exact writeWithin_relaxes hcap _ _ _
  · exact .refl _

theorem execAt_relaxes (i : Instr) (s : State) : Relaxes (execAt cap i s) (execAt larger i s) := by
  cases i with
  | load bd nbits nbytes => exact loadAt_relaxes hcap bd nbits nbytes s
  | concat bd bs1 bs2 => exact writeWithin_relaxes hcap bd _ s
  | encch bd bs1 cnt w => exact encchAt_relaxes hcap bd bs1 cnt w s
  | encls bd bs1 cnt w => exact enclsAt_relaxes hcap bd bs1 cnt w s
  | store | len | slice | equal | mkhdr | rdhdr | decch | decls => exact .refl _

end

/-- The block is the one whose `MAXBITS` is `Config.maxBits` (00_scope R9). -/
theorem exec_eq_execAt (i : Instr) (s : State) : exec i s = execAt Config.maxBits i s := by
  cases i <;> rfl

/-- Settles O22: the two answers are equal, or the one of the larger block is a completion in place of a CapacityError. -/
theorem largerBlockKeepsResults : Obligations.LargerBlockKeepsResults := by
  refine ⟨exec_eq_execAt, fun cap larger i s t u hcap ht hu => Relaxes.next ?_⟩
  rw [← ht, ← hu]
  exact execAt_relaxes hcap i s

end Sys2Proof.Machine

/-! The state (10_state): what a command reads and what it may write, said once for all twelve commands, and from it the
register invariant, the frame of every command and its independence of the latches; the reset state and the response. -/

namespace Sys2Proof.Machine

/-! ### What a command leaves in a register fits there (10_state R20)

LOAD, SLICE and MKHDR give values that fit, and so do DECCH and DECLS, whose chunks are slices of a register. CONCAT, ENCCH and
ENCLS give canonical values, whose length `writeWithin` tests. -/

/-- As many bits of DIN as it has (40_bitbuffer R71). -/
theorem chop_memRead_canonical {s : State} {n : Nat} (h : n ≤ 8 * s.din.length) :
    (⟨chop (memRead s 0 (ceil8 n)) n, n⟩ : BitString).Canonical := by
  apply chop_canonical
  rw [← ceil8_le_iff] at h ⊢
  simp [memRead, h]

theorem slice_fits {x y : BitString} {start stop : Int} (hx : x.len ≤ Config.maxBits) (h : slice x start stop = .ok y) :
    y.Fits := by
  unfold slice at h
  split at h <;> cases h
  exact sub_fits hx _ _

theorem numBits_le {v k : Nat} (h : v < 2 ^ k) : numBits v ≤ k := by
  unfold numBits
  split
  · exact Nat.zero_le k
  · exact (Nat.log2_lt ‹_›).2 h

theorem fieldWidth_le {h k : Nat} (hk : h ≤ 2 ^ k) : fieldWidth h ≤ 2 ^ k := by
  unfold fieldWidth
  split
  · exact Nat.zero_le _
  · exact Nat.pow_le_pow_right (by decide) (numBits_le (by omega))

/-- A header has at most 15 bits of `size_code` and 32 bits of length, and no register is shorter than 64 bits
(41_header_codec R90; 00_scope R9). -/
theorem createHeader_fits {length : Scalar} {w : BitVec 4} {h : BitString}
    (e : createHeader (sext32 length) (widthOf w) = some h) : h.Fits := by
  refine ⟨createHeader_canonical e, ?_⟩
  have hlength : (sext32 length).toNat < 2 ^ 32 := by have := BitVec.toInt_lt (x := length); simp only [sext32]; omega
  have hfield : fieldWidth (numBits (sext32 length).toNat) ≤ 2 ^ 5 := fieldWidth_le (numBits_le hlength)
  have hwidth : widthOf w < 16 := w.isLt
  have := Config.le_maxBits
  rw [createHeader_len e]
  omega

theorem encodeList_canonical {ch : List BitString} {W : Nat} {y : BitString} (h : encodeList ch W = .ok y) : y.Canonical :=
  framesThen_canonical empty_canonical h

/-- The last chunk has no header, so it is the result itself when it is the only one (42_framing R101). -/
theorem encodeChunks_canonical {ch : List BitString} {W : Nat} {y : BitString} (hch : ∀ c ∈ ch, c.Canonical)
    (h : encodeChunks ch W = .ok y) : y.Canonical := by
  unfold encodeChunks at h
  split at h
  · cases h; exact empty_canonical
  · rename_i last hlast
    exact framesThen_canonical (hch last (List.mem_of_getLast? hlast)) h

theorem State.Inv.range_canonical {s : State} (h : s.Inv) (base : BReg) (cnt : Nat) :
    ∀ c ∈ s.range base cnt, c.Canonical := by
  intro c hc
  obtain ⟨r, hr, rfl⟩ := List.getElem_of_mem (List.mem_of_mem_drop (List.mem_of_mem_take hc))
  exact (h ⟨r, by simpa using hr⟩).1

theorem decodeChunks_fits {x : BitString} {count W : Nat} {out : List BitString} (hx : x.len ≤ Config.maxBits)
    (h : decodeChunks x count W = .ok out) : ∀ y ∈ out, y.Fits := by
  cases count with
  | zero =>
    simp only [decodeChunks] at h
    split at h <;> cases h
    simp
  | succ k => exact chunksFrom_fits hx k 0 out h

/-- The loop of `decode_chunks` gives one chunk a pass and one more (42_framing R105). -/
theorem chunksFrom_length {x : BitString} {W k cur : Nat} {out : List BitString} (h : chunksFrom x W k cur = .ok out) :
    out.length = k + 1 := by
  induction k generalizing cur out with
  | zero => cases h; rfl
  | succ k ih =>
    simp only [chunksFrom] at h
    split at h
    · cases h
    · split at h
      · cases h
      · rename_i hrest
        cases h
        simp [ih hrest]

/-- `decode_chunks` gives as many chunks as it is asked for (42_framing R106). -/
theorem decodeChunks_length {x : BitString} {count W : Nat} {out : List BitString} (h : decodeChunks x count W = .ok out) :
    out.length = count := by
  cases count with
  | zero =>
    simp only [decodeChunks] at h
    split at h <;> cases h
    rfl
  | succ k => exact chunksFrom_length h

/-! ### What no command reads: the latches and the last response -/

/-- The part of the state that no command reads (10_state R22 to R25). -/
structure Latches where
  r0 : Scalar
  r1 : Scalar
  status : Status
  einfo : Scalar
  dout : Option (List Byte)

/-- `s` with other latches and another last response. -/
def State.withLatches (s : State) (l : Latches) : State :=
  { s with r0 := l.r0, r1 := l.r1, status := l.status, einfo := l.einfo, dout := l.dout }

/-- The latches and the last response of `s`. -/
def State.latches (s : State) : Latches := ⟨s.r0, s.r1, s.status, s.einfo, s.dout⟩

@[simp] theorem State.withLatches_latches (s : State) : s.withLatches s.latches = s := rfl

section
variable (s : State) (l : Latches)

@[simp] theorem State.b_withLatches : (s.withLatches l).b = s.b := rfl
@[simp] theorem State.reg_withLatches (r : BReg) : (s.withLatches l).reg r = s.reg r := rfl
@[simp] theorem State.range_withLatches (base : BReg) (cnt : Nat) : (s.withLatches l).range base cnt = s.range base cnt := rfl
@[simp] theorem State.din_withLatches : (s.withLatches l).din = s.din := rfl
@[simp] theorem State.memRead_withLatches (a n : Nat) : memRead (s.withLatches l) a n = memRead s a n := rfl

end

/-! ### What a command writes when it completes -/

/-- What a completing command writes: the registers, `R0` and `R1` where it writes them, and DOUT. -/
structure Update where
  regs : Vector BitString 16
  r0 : Option Scalar := none
  r1 : Option Scalar := none
  out : List Byte := []

/-- The state that a command completes on when it makes the update `u` in `s`. -/
def Update.apply (u : Update) (s : State) : State :=
  { s with b := u.regs, r0 := u.r0.getD s.r0, r1 := u.r1.getD s.r1 }

section
variable (u : Update) (s : State)

@[simp] theorem Update.b_apply : (u.apply s).b = u.regs := rfl
@[simp] theorem Update.r0_apply : (u.apply s).r0 = u.r0.getD s.r0 := rfl
@[simp] theorem Update.r1_apply : (u.apply s).r1 = u.r1.getD s.r1 := rfl
@[simp] theorem Update.resetIn_apply : (u.apply s).resetIn = s.resetIn := rfl
@[simp] theorem Update.inputs_apply : (u.apply s).inputs = s.inputs := rfl

end

/-- `u` is an update that the command `i` may make in `s`: it stays inside the destinations of `i`, writes `R0` and `R1`
exactly when `i` does, and keeps every register canonical and within `MAXBITS`. -/
structure Update.Lawful (i : Instr) (s : State) (u : Update) : Prop where
  frame : ∀ r, ¬ mayWrite i r → (u.apply s).reg r = s.reg r
  r0 : writesR0 i ↔ u.r0.isSome
  r1 : writesR1 i ↔ u.r1.isSome
  inv : s.Inv → (u.apply s).Inv

/-- The update of one register is lawful for a command that has this destination and writes no latch. For each such command
the first three hypotheses hold by `mayWrite`, `writesR0` and `writesR1` as they stand. -/
theorem lawful_setReg {i : Instr} {s : State} {bd : BReg} {x : BitString} (hd : ∀ r, ¬ mayWrite i r → r ≠ bd)
    (h0 : ¬ writesR0 i) (h1 : ¬ writesR1 i) (hx : s.Inv → x.Fits) : Update.Lawful i s { regs := (s.setReg bd x).b } where
  frame r hr := s.reg_setReg_ne x (hd r hr)
  r0 := by simpa using h0
  r1 := by simpa using h1
  inv h := h.setReg bd (hx h)

/-- The update of no register is lawful for the commands that write latches only. -/
theorem lawful_latches {i : Instr} {s : State} {v0 v1 : Option Scalar} {out : List Byte} (h0 : writesR0 i ↔ v0.isSome)
    (h1 : writesR1 i ↔ v1.isSome) : Update.Lawful i s ⟨s.b, v0, v1, out⟩ where
  frame _ _ := rfl
  r0 := h0
  r1 := h1
  inv h := h

/-- The update of a range of registers with chunks that fit is lawful for a command that has these destinations. -/
theorem lawful_setRange {i : Instr} {s : State} {bd : BReg} {out : List BitString} {v0 : Option Scalar}
    (hd : ∀ r, ¬ mayWrite i r → r.val < bd.val ∨ bd.val + out.length ≤ r.val) (h0 : writesR0 i ↔ v0.isSome)
    (h1 : ¬ writesR1 i) (hx : s.Inv → ∀ x ∈ out, x.Fits) :
    Update.Lawful i s { regs := (s.setRange bd out).b, r0 := v0 } where
  frame r hr := s.reg_setRange_not_mem bd r out (hd r hr)
  r0 := h0
  r1 := by simpa using h1
  inv h := h.setRange bd (hx h)

/-! ### What a command can do, said once -/

/-- The meaning `a` of the command `i` ends in one way on every state that differs from `s` in the latches and the last
response only: with the same error, or with the same lawful update. -/
inductive Ends (i : Instr) (s : State) (a : State → Answer) : Prop
  | raised (k : ErrorKind) (info : Nat) (h : ∀ l, a (s.withLatches l) = raise k info (s.withLatches l))
  | updated (u : Update) (hu : u.Lawful i s) (h : ∀ l, a (s.withLatches l) = complete u.out (u.apply (s.withLatches l)))

/-- The end of CONCAT, ENCCH and ENCLS: the capacity test, then one register written. -/
theorem ends_writeWithin {i : Instr} {s : State} {a : State → Answer} {bd : BReg} {y : BitString}
    (hd : ∀ r, ¬ mayWrite i r → r ≠ bd) (h0 : ¬ writesR0 i) (h1 : ¬ writesR1 i) (hy : s.Inv → y.Canonical)
    (h : ∀ l, a (s.withLatches l) = writeWithin Config.maxBits bd y (s.withLatches l)) : Ends i s a := by
  by_cases hcap : y.len > Config.maxBits
  · exact .raised .capacityError 0 fun l => (h l).trans (if_pos hcap)
  · exact .updated _ (lawful_setReg hd h0 h1 fun hs => ⟨hy hs, not_lt.1 hcap⟩) fun l => (h l).trans (if_neg hcap)

theorem execLoad_ends (bd : BReg) (nbits nbytes : Scalar) (s : State) :
    Ends (.load bd nbits nbytes) s (exec (.load bd nbits nbytes)) := by
  by_cases hrange : sext32 nbits < 0 ∨ sext32 nbytes < 0 ∨ (s.din.length : Int) ≠ sext32 nbytes ∨
      sext32 nbits > 8 * sext32 nbytes
  · exact .raised .rangeError 0 fun _ => if_pos hrange
  by_cases hcap : (sext32 nbits).toNat > Config.maxBits
  · exact .raised .capacityError 0 fun _ => (if_neg hrange).trans (if_pos hcap)
  have hfits : (sext32 nbits).toNat ≤ 8 * s.din.length := by omega
  exact .updated _ (lawful_setReg (fun _ => id) id id fun _ => ⟨chop_memRead_canonical hfits, not_lt.1 hcap⟩)
    fun _ => (if_neg hrange).trans (if_neg hcap)

theorem execSlice_ends (bd bs1 : BReg) (start stop : Scalar) (s : State) :
    Ends (.slice bd bs1 start stop) s (exec (.slice bd bs1 start stop)) := by
  cases h : slice (s.reg bs1) (sext32 start) (sext32 stop) with
  | error e => exact .raised e.kind e.info fun _ => by simp only [exec, execSlice, State.reg_withLatches, h]
  | ok y =>
    exact .updated _ (lawful_setReg (fun _ => id) id id fun hs => slice_fits (hs bs1).2 h)
      fun _ => by simp only [exec, execSlice, State.reg_withLatches, h]; rfl

theorem execMkhdr_ends (bd : BReg) (length : Scalar) (w : BitVec 4) (s : State) :
    Ends (.mkhdr bd length w) s (exec (.mkhdr bd length w)) := by
  by_cases hw : widthLegal w
  · cases h : createHeader (sext32 length) (widthOf w) with
    | none => exact .raised .encodingError 0 fun _ => by simp [exec, execMkhdr, hw, h]
    | some x =>
      exact .updated _ (lawful_setReg (fun _ => id) id id fun _ => createHeader_fits h)
        fun _ => by simp only [exec, execMkhdr, hw, h]; rfl
  · exact .raised .illegalCommand 0 fun _ => if_neg hw

theorem execRdhdr_ends (bs1 : BReg) (offset : Scalar) (w : BitVec 4) (s : State) :
    Ends (.rdhdr bs1 offset w) s (exec (.rdhdr bs1 offset w)) := by
  by_cases hw : widthLegal w
  · by_cases hrange : sext32 offset < 0 ∨ sext32 offset > (s.reg bs1).len
    · exact .raised .rangeError 0 fun _ => (if_pos hw).trans (if_pos hrange)
    · cases h : readHeader (s.reg bs1) (sext32 offset).toNat (widthOf w) with
      | error e => exact .raised e.kind e.info fun _ => by simp [exec, execRdhdr, hw, hrange, h]
      | ok offsets =>
        obtain ⟨ps, pe⟩ := offsets
        by_cases hend : pe > 2 ^ 32 - 1
        · exact .raised .payloadTruncated (sext32 offset).toNat fun _ => by
            simp only [exec, execRdhdr, State.reg_withLatches, hw, if_true, if_neg hrange, h, if_pos hend]
        · exact .updated ⟨s.b, some (latch ps), some (latch pe), []⟩
            (lawful_latches (by simp [writesR0]) (by simp [writesR1])) fun _ => by
              simp only [exec, execRdhdr, State.reg_withLatches, hw, if_true, if_neg hrange, h, if_neg hend]; rfl
  · exact .raised .illegalCommand 0 fun _ => if_neg hw

theorem execEncch_ends (bd bs1 : BReg) (cnt : BitVec 8) (w : BitVec 4) (s : State) :
    Ends (.encch bd bs1 cnt w) s (exec (.encch bd bs1 cnt w)) := by
  by_cases hw : widthLegal w && rangeLegal bs1 cnt
  · cases h : encodeChunks (s.range bs1 (countOf cnt)) (widthOf w) with
    | error e => exact .raised e.kind e.info fun _ => by simp [exec, execEncch, encchAt, hw, h]
    | ok y =>
      exact ends_writeWithin (fun _ => id) id id (fun hs => encodeChunks_canonical (hs.range_canonical _ _) h)
        fun _ => by simp only [exec, execEncch, encchAt, State.range_withLatches, hw, if_true, h]
  · exact .raised .illegalCommand 0 fun _ => if_neg hw

theorem execEncls_ends (bd bs1 : BReg) (cnt : BitVec 8) (w : BitVec 4) (s : State) :
    Ends (.encls bd bs1 cnt w) s (exec (.encls bd bs1 cnt w)) := by
  by_cases hw : widthLegal w && rangeLegal bs1 cnt
  · cases h : encodeList (s.range bs1 (countOf cnt)) (widthOf w) with
    | error e => exact .raised e.kind e.info fun _ => by simp [exec, execEncls, enclsAt, hw, h]
    | ok y =>
      exact ends_writeWithin (fun _ => id) id id (fun _ => encodeList_canonical h)
        fun _ => by simp only [exec, execEncls, enclsAt, State.range_withLatches, hw, if_true, h]
  · exact .raised .illegalCommand 0 fun _ => if_neg hw

theorem execDecch_ends (bd bs1 : BReg) (cnt : BitVec 8) (w : BitVec 4) (s : State) :
    Ends (.decch bd bs1 cnt w) s (exec (.decch bd bs1 cnt w)) := by
  by_cases hw : widthLegal w && rangeLegal bd cnt
  · cases h : decodeChunks (s.reg bs1) (countOf cnt) (widthOf w) with
    | error e => exact .raised e.kind e.info fun _ => by simp [exec, execDecch, hw, h]
    | ok out =>
      have hlength : out.length = cnt.toNat := decodeChunks_length h
      refine .updated _ (lawful_setRange (bd := bd) (out := out) (fun r hr => ?_) (v0 := none) (by simp [writesR0]) id
        fun hs => decodeChunks_fits (hs bs1).2 h) fun _ => ?_
      · simp only [mayWrite] at hr
        omega
      · simp only [exec, execDecch, State.reg_withLatches, hw, if_true, h]; rfl
  · exact .raised .illegalCommand 0 fun _ => if_neg hw

theorem execDecls_ends (bd bs1 : BReg) (w : BitVec 4) (s : State) :
    Ends (.decls bd bs1 w) s (exec (.decls bd bs1 w)) := by
  by_cases hw : widthLegal w
  · cases h : decodeList (s.reg bs1) (widthOf w) with
    | error e => exact .raised e.kind e.info fun _ => by simp [exec, execDecls, hw, h]
    | ok out =>
      by_cases hcap : bd.val + out.length > 16
      · exact .raised .capacityError 0 fun _ => by simp [exec, execDecls, hw, h, hcap]
      · refine .updated _ (lawful_setRange (bd := bd) (out := out) (fun r hr => .inl (not_le.1 hr))
          (v0 := some (latch out.length)) (by simp [writesR0]) id fun hs => framesFrom_fits (hs bs1).2 _ _ _ h) fun _ => ?_
        simp only [exec, execDecls, State.reg_withLatches, hw, if_true, h, if_neg hcap]; rfl
  · exact .raised .illegalCommand 0 fun _ => if_neg hw

/-- What every command, legal or not, can do. -/
theorem exec_ends (i : Instr) (s : State) : Ends i s (exec i) := by
  cases i with
  | load bd nbits nbytes => exact execLoad_ends bd nbits nbytes s
  | store bs1 =>
    exact .updated ⟨s.b, some (latch (s.reg bs1).len), some (latch (ceil8 (s.reg bs1).len)), (s.reg bs1).store⟩
      (lawful_latches (by simp [writesR0]) (by simp [writesR1])) fun _ => rfl
  | len bs1 =>
    exact .updated ⟨s.b, some (latch (s.reg bs1).len), none, []⟩ (lawful_latches (by simp [writesR0]) (by simp [writesR1]))
      fun _ => rfl
  | slice bd bs1 start stop => exact execSlice_ends bd bs1 start stop s
  | concat bd bs1 bs2 =>
    exact ends_writeWithin (fun _ => id) id id (fun _ => concat_canonical (s.reg bs1) (s.reg bs2)) fun _ => rfl
  | equal bs1 bs2 =>
    exact .updated ⟨s.b, some (if equal (s.reg bs1) (s.reg bs2) then 1 else 0), none, []⟩
      (lawful_latches (by simp [writesR0]) (by simp [writesR1])) fun _ => rfl
  | mkhdr bd length w => exact execMkhdr_ends bd length w s
  | rdhdr bs1 offset w => exact execRdhdr_ends bs1 offset w s
  | encch bd bs1 cnt w => exact execEncch_ends bd bs1 cnt w s
  | decch bd bs1 cnt w => exact execDecch_ends bd bs1 cnt w s
  | encls bd bs1 cnt w => exact execEncls_ends bd bs1 cnt w s
  | decls bd bs1 w => exact execDecls_ends bd bs1 w s

/-- The states that a command can answer from `s`: the error on `s`, or the end of a lawful update of `s`. -/
theorem exec_next_cases {i : Instr} {s t : State} (h : exec i s = .next t) :
    (∃ k info, t = s.answer (.error k) (latch info) []) ∨
      ∃ u : Update, u.Lawful i s ∧ t = (u.apply s).answer .ok 0 u.out := by
  obtain ⟨k, info, hend⟩ | ⟨u, hu, hend⟩ := exec_ends i s
  · exact .inl ⟨k, info, raise_inv ((hend s.latches).symm.trans h)⟩
  · exact .inr ⟨u, hu, complete_inv ((hend s.latches).symm.trans h)⟩

/-! ### The reset state (10_state R27, R28) -/

/-- Settles O11: every register is EMPTY and every latch is written out as 0. -/
theorem resetStateValues : Obligations.ResetStateValues :=
  ⟨fun r => by simp [BitString.empty], rfl, rfl, rfl, rfl⟩

theorem State.reset_inv : State.reset.Inv := fun r => by
  rw [State.reg_reset]
  exact empty_fits

/-- Settles O12: EMPTY fits, STATUS and EINFO are 0, and no response stands at the port. -/
theorem resetMeetsInvariants : Obligations.ResetMeetsInvariants :=
  ⟨State.reset_inv, rfl, State.reg_reset, rfl, rfl, rfl, rfl, rfl⟩

/-! ### Every step keeps the register invariant (10_state R20, 70_reset_and_hazards R141) -/

theorem exec_inv {i : Instr} {s t : State} (hs : s.Inv) (h : exec i s = .next t) : t.Inv := by
  obtain ⟨k, info, rfl⟩ | ⟨u, hu, rfl⟩ := exec_next_cases h
  · exact hs.answer _ _ _
  · exact (hu.inv hs).answer _ _ _

/-- Settles O13: of the six things a step can be, asserting reset makes every register EMPTY, a command writes values that
fit, and the other four leave the registers as they are. -/
theorem stepKeepsCanonicalForm : Obligations.StepKeepsCanonicalForm := by
  intro s t hs h
  obtain ⟨-, e⟩ | e | e | ⟨-, e⟩ | ⟨-, e⟩ | ⟨-, i, e⟩ := step_cases s <;> rw [e] at h
  · cases h; exact hs -- the block waits
  · cases h; exact State.reset_inv.of_reg fun _ => rfl -- reset is asserted
  · cases h; exact hs.of_reg fun _ => rfl -- reset is released
  · cases h; exact hs.of_reg fun _ => rfl -- a command is turned away during reset
  · exact hs.raise h -- the word is illegal
  · exact exec_inv hs h

/-! ### What a command reads and what it leaves unchanged -/

/-- Settles O16: on the state with other latches the command ends with the same error or with the same update, and an update
gives `R0` and `R1` new values where the command writes them. -/
theorem resultsIgnoreLatches : Obligations.ResultsIgnoreLatches := by
  intro i s t r0 r1 einfo status dout h
  obtain ⟨k, info, hend⟩ | ⟨u, hu, hend⟩ := exec_ends i s
  · have ht := raise_inv ((hend s.latches).symm.trans h)
    exact ⟨_, hend ⟨r0, r1, status, einfo, dout⟩, by simp [ht]⟩
  · have ht := complete_inv ((hend s.latches).symm.trans h)
    refine ⟨_, hend ⟨r0, r1, status, einfo, dout⟩, by simp [ht], by simp [ht], by simp [ht], by simp [ht],
      fun _ => ⟨fun h0 => ?_, fun h1 => ?_⟩⟩
    · obtain ⟨v, hv⟩ := Option.isSome_iff_exists.1 (hu.r0.1 h0)
      simp [ht, hv]
    · obtain ⟨v, hv⟩ := Option.isSome_iff_exists.1 (hu.r1.1 h1)
      simp [ht, hv]

/-- Settles O21: a command that raises changes no register and no latch, and a lawful update stays in its frame. -/
theorem frameOfEveryCommand : Obligations.FrameOfEveryCommand := by
  intro i s t h
  obtain ⟨k, info, rfl⟩ | ⟨u, hu, rfl⟩ := exec_next_cases h
  · simp
  · refine ⟨hu.frame, fun h0 => ?_, fun h1 => ?_, rfl, rfl⟩
    · simp [Option.not_isSome_iff_eq_none.1 (h0 ∘ hu.r0.2)]
    · simp [Option.not_isSome_iff_eq_none.1 (h1 ∘ hu.r1.2)]

/-! ### The response (30_encoding R62, 60_exceptions R117) -/

/-- A step on any word, legal or not, ends as a command does. -/
theorem step_command_endsWell {s : State} {request : Request} {later : List HostMove}
    (hmove : s.inputs = .command request :: later) (hreset : s.resetIn = false) : EndsWell s (step s) := by
  simp only [step, hmove, hreset, Bool.false_eq_true, if_false]
  split
  · exact endsWell_raise _ _ _
  · exact exec_endsWell _ _

/-- A command that ends leaves its response at the port. -/
theorem EndsWell.dout {s t : State} (h : EndsWell s (.next t)) : ∃ out, t.dout = some out := by
  obtain ⟨k, info, h⟩ | ⟨u, out, h, -⟩ := h
  · exact ⟨[], by rw [raise_inv h.symm]; rfl⟩
  · exact ⟨out, by rw [complete_inv h.symm]; rfl⟩

theorem State.response_of_dout {s : State} {out : List Byte} (h : s.dout = some out) :
    s.response = some ⟨s.status.code, s.einfo, s.r0, s.r1, out⟩ := by
  simp [State.response, h]

/-- The eight values of STATUS (10_state R24). -/
def Status.all : List Status :=
  [.ok, .error .rangeError, .error .encodingError, .error .headerTruncated, .error .payloadTruncated,
    .error .trailingGarbage, .error .capacityError, .error .illegalCommand]

theorem Status.mem_all (a : Status) : a ∈ Status.all := by
  cases a with
  | ok => decide
  | error k => cases k <;> decide

/-- Different outcomes have different codes (60_exceptions R117). -/
theorem Status.code_injective (a b : Status) : a.code = b.code → a = b :=
  have table : ∀ a ∈ Status.all, ∀ b ∈ Status.all, a.code = b.code → a = b := by decide
  table a a.mem_all b b.mem_all

/-- Settles O60: the codes are computed and differ, and every command leaves DOUT at the port, beside which the response
shows the latches. -/
theorem responseShowsTheStatusCode : Obligations.ResponseShowsTheStatusCode := by
  refine ⟨by decide, Status.code_injective, fun s t request later hmove hreset h => ?_⟩
  obtain ⟨out, hout⟩ := (h ▸ step_command_endsWell hmove hreset).dout
  exact ⟨_, State.response_of_dout hout, rfl, rfl, rfl, rfl, hout⟩

end Sys2Proof.Machine

/-! The data ports and the serialised word (20_memory): the bytes and the pieces in which a word is sent are received as the
same word, only LOAD reads DIN, and only a STORE that completes gives DOUT. -/

namespace Sys2Proof.Machine

/-! ### The serialised word (20_memory R36, 30_encoding R53) -/

@[simp] theorem bytesOfWord_length (c : CmdWord) : (bytesOfWord c).length = 12 := by simp [bytesOfWord]

theorem byteAt_bytesOfWord (c : CmdWord) {j : Nat} (h : j < 12) :
    byteAt (bytesOfWord c) j = c.extractLsb' (8 * (11 - j)) 8 := by
  simp [byteAt, bytesOfWord, List.getD, h]

theorem bitAt_bytesOfWord (c : CmdWord) {p : Nat} (h : p < 96) : bitAt (bytesOfWord c) p = c.getMsbD p := by
  have hbit : 7 - p % 8 < 8 := by omega
  have hpos : 8 * (11 - p / 8) + (7 - p % 8) = 96 - 1 - p := by omega
  rw [bitAt, byteAt_bytesOfWord c (by omega), BitVec.getLsbD_extractLsb', BitVec.getMsbD, hpos]
  simp only [hbit, h, decide_true, Bool.true_and]

/-- One byte received: it comes in below the bytes before it (20_memory R36). -/
def receiveByte (acc : CmdWord) (byte : Byte) : CmdWord := (acc <<< 8) ||| byte.setWidth 96

theorem wordOfBytes_eq_foldl {bytes : List Byte} (h : bytes.length = 12) :
    wordOfBytes bytes = some (bytes.foldl receiveByte 0) := if_pos h

/-- A byte received below the bits of `c` from offset `n + 8` on. -/
theorem receiveByte_shiftRight (c : CmdWord) (n : Nat) :
    receiveByte (c >>> (n + 8)) (c.extractLsb' n 8) = c >>> n := by
  apply BitVec.eq_of_getLsbD_eq
  intro i hi
  simp only [receiveByte, BitVec.getLsbD_or, BitVec.getLsbD_shiftLeft, BitVec.getLsbD_ushiftRight,
    BitVec.getLsbD_setWidth, BitVec.getLsbD_extractLsb']
  by_cases hlow : i < 8
  · simp [hlow, hi]
  · have hpos : n + 8 + (i - 8) = n + i := by omega
    simp [hlow, hi, hpos]

/-- After `k` of the 12 bytes the upper `8 k` bits of the word are received. -/
theorem foldl_receiveByte (c : CmdWord) {k : Nat} (h : k ≤ 12) :
    ((List.range k).map fun i => c.extractLsb' (8 * (11 - i)) 8).foldl receiveByte 0 = c >>> (8 * (12 - k)) := by
  induction k with
  | zero => exact (BitVec.ushiftRight_eq_zero (Nat.le_refl 96)).symm
  | succ k ih =>
    have hshift : 8 * (12 - k) = 8 * (11 - k) + 8 := by omega
    have hnext : 12 - (k + 1) = 11 - k := by omega
    rw [List.range_succ, List.map_append, List.foldl_append, ih (by omega), hshift, hnext]
    exact receiveByte_shiftRight c _

theorem wordOfBytes_bytesOfWord (c : CmdWord) : wordOfBytes (bytesOfWord c) = some c := by
  rw [wordOfBytes_eq_foldl (bytesOfWord_length c), bytesOfWord, foldl_receiveByte c (Nat.le_refl 12)]
  simp

theorem wordOfPieces_extract (c : CmdWord) :
    wordOfPieces (c.extractLsb' 64 32) (c.extractLsb' 32 32) (c.extractLsb' 0 32) = c := by
  have hlower : c.extractLsb' 32 32 ++ c.extractLsb' 0 32 = c.extractLsb' 0 64 :=
    BitVec.extractLsb'_append_extractLsb'_eq_extractLsb' (by decide)
  have hword : c.extractLsb' 64 32 ++ c.extractLsb' 0 64 = c.extractLsb' 0 96 :=
    BitVec.extractLsb'_append_extractLsb'_eq_extractLsb' (by decide)
  rw [wordOfPieces, hlower, hword, BitVec.extractLsb'_eq_self]

/-- Settles O4: the bytes are received one below the other, and the three pieces lie side by side. -/
theorem serialisedWordRoundTrip : Obligations.SerialisedWordRoundTrip := fun c =>
  ⟨bytesOfWord_length c, wordOfBytes_bytesOfWord c, fun _ => bitAt_bytesOfWord c, wordOfPieces_extract c⟩

/-! ### The data ports (20_memory R40)

The ten commands that are neither LOAD nor STORE use neither port; `OffPorts` says so of their answers, and one case split
over these commands serves both statements. -/

/-- `s` with other moves of the host waiting, which are where DIN comes from. -/
def State.withMoves (s : State) (moves : List HostMove) : State := { s with inputs := moves }

section
variable (s : State) (moves : List HostMove)

@[simp] theorem State.reg_withMoves (r : BReg) : (s.withMoves moves).reg r = s.reg r := rfl
@[simp] theorem State.range_withMoves (base : BReg) (cnt : Nat) : (s.withMoves moves).range base cnt = s.range base cnt := rfl
@[simp] theorem State.withMoves_inputs : s.withMoves s.inputs = s := rfl

end

/-- `a` is an answer with an empty DOUT, and `b` is the same answer on a state where `moves` wait. -/
def OffPorts (moves : List HostMove) (a b : Answer) : Prop :=
  ∃ t : State, a = .next t ∧ t.dout = some [] ∧ b = .next (t.withMoves moves.tail)

section
variable (s : State) (moves : List HostMove)

theorem offPorts_raise (k : ErrorKind) (info : Nat) :
    OffPorts moves (raise k info s) (raise k info (s.withMoves moves)) := ⟨_, rfl, rfl, rfl⟩

theorem offPorts_complete : OffPorts moves (complete [] s) (complete [] (s.withMoves moves)) := ⟨_, rfl, rfl, rfl⟩

theorem offPorts_writeWithin (cap : Nat) (bd : BReg) (y : BitString) :
    OffPorts moves (writeWithin cap bd y s) (writeWithin cap bd y (s.withMoves moves)) := by
  unfold writeWithin
  split
  · exact offPorts_raise s moves _ _
  · exact offPorts_complete (s.setReg bd y) moves

/-- A command that is neither LOAD nor STORE uses neither data port. -/
theorem exec_offPorts {i : Instr} (hload : ∀ bd a b, i ≠ .load bd a b) (hstore : ∀ r, i ≠ .store r) :
    OffPorts moves (exec i s) (exec i (s.withMoves moves)) := by
  cases i with
  | load bd nbits nbytes => exact absurd rfl (hload bd nbits nbytes)
  | store bs1 => exact absurd rfl (hstore bs1)
  | len bs1 => exact offPorts_complete (s.setR0 _) moves
  | slice bd bs1 start stop =>
    simp only [exec, execSlice, State.reg_withMoves]
    split
    · exact offPorts_raise s moves _ _
    · exact offPorts_complete (s.setReg bd _) moves
  | concat bd bs1 bs2 => exact offPorts_writeWithin s moves _ bd _
  | equal bs1 bs2 => exact offPorts_complete (s.setR0 _) moves
  | mkhdr bd length w =>
    simp only [exec, execMkhdr]
    split
    · split
      · exact offPorts_raise s moves _ _
      · exact offPorts_complete (s.setReg bd _) moves
    · exact offPorts_raise s moves _ _
  | rdhdr bs1 offset w =>
    rw [exec, exec, execRdhdr, execRdhdr, State.reg_withMoves]
    split
    · split
      · exact offPorts_raise s moves _ _
      · split
        · exact offPorts_raise s moves _ _
        · split
          · exact offPorts_raise s moves _ _
          · exact offPorts_complete ((s.setR0 _).setR1 _) moves
    · exact offPorts_raise s moves _ _
  | encch bd bs1 cnt w =>
    simp only [exec, execEncch, encchAt, State.range_withMoves]
    split
    · split
      · exact offPorts_raise s moves _ _
      · exact offPorts_writeWithin s moves _ bd _
    · exact offPorts_raise s moves _ _
  | decch bd bs1 cnt w =>
    simp only [exec, execDecch, State.reg_withMoves]
    split
    · split
      · exact offPorts_raise s moves _ _
      · exact offPorts_complete (s.setRange bd _) moves
    · exact offPorts_raise s moves _ _
  | encls bd bs1 cnt w =>
    simp only [exec, execEncls, enclsAt, State.range_withMoves]
    split
    · split
      · exact offPorts_raise s moves _ _
      · exact offPorts_writeWithin s moves _ bd _
    · exact offPorts_raise s moves _ _
  | decls bd bs1 w =>
    simp only [exec, execDecls, State.reg_withMoves]
    split
    · split
      · exact offPorts_raise s moves _ _
      · split
        · exact offPorts_raise s moves _ _
        · exact offPorts_complete ((s.setRange bd _).setR0 _) moves
    · exact offPorts_raise s moves _ _

end

/-- LOAD gives no DOUT. -/
theorem loadAt_dout {cap : Nat} {bd : BReg} {nbits nbytes : Scalar} {s t : State}
    (h : loadAt cap bd nbits nbytes s = .next t) : t.dout = some [] := by
  unfold loadAt at h
  split at h
  · rw [raise_inv h, State.dout_answer]
  · split at h
    · rw [raise_inv h, State.dout_answer]
    · rw [complete_inv h, State.dout_answer]

/-- Settles O17: STORE reads a register only, and the other commands use neither port. -/
theorem onlyLoadReadsDin : Obligations.OnlyLoadReadsDin := by
  intro i s t moves hload h
  by_cases hstore : ∃ r, i = .store r
  · obtain ⟨r, rfl⟩ := hstore
    cases h
    rfl
  · obtain ⟨t', ht, -, hmoves⟩ := exec_offPorts s moves hload (not_exists.1 hstore)
    cases h.symm.trans ht
    exact hmoves

/-- Settles O18: LOAD has no DOUT, STORE always completes with the store of its register, and the other commands use neither
port. -/
theorem onlyStoreGivesDout : Obligations.OnlyStoreGivesDout := by
  intro i s t h
  by_cases hload : ∃ bd nbits nbytes, i = .load bd nbits nbytes
  · obtain ⟨bd, nbits, nbytes, rfl⟩ := hload
    exact .inl (loadAt_dout h)
  by_cases hstore : ∃ r, i = .store r
  · obtain ⟨r, rfl⟩ := hstore
    cases h
    exact .inr ⟨r, rfl, rfl, rfl⟩
  · simp only [not_exists] at hload hstore
    obtain ⟨t', ht, hdout, -⟩ := exec_offPorts s s.inputs hload hstore
    cases h.symm.trans ht
    exact .inl hdout

end Sys2Proof.Machine

/-! The command word (30_encoding): a word decodes to a command exactly when the command is legal and the word is its
encoding, from which the statements on the decoder follow; the pseudo-commands; and what a word that is no command does. -/

namespace Sys2Proof.Machine

/-! ### The operands of a row (30_encoding R61)

`commandOf` reads a row's operands off a word without any condition, and `opOf` names the row of a command. Both are tied
to the decoder by `operandsOf_eq_ok_iff` and `encode_commandOf_iff`. -/

/-- The row of a command in the opcode table (30_encoding R57). -/
def opOf : Instr → Op
  | .load _ _ _ => .load
  | .store _ => .store
  | .len _ => .len
  | .slice _ _ _ _ => .slice
  | .concat _ _ _ => .concat
  | .equal _ _ => .equal
  | .mkhdr _ _ _ => .mkhdr
  | .rdhdr _ _ _ => .rdhdr
  | .encch _ _ _ _ => .encch
  | .decch _ _ _ _ => .decch
  | .encls _ _ _ _ => .encls
  | .decls _ _ _ => .decls

/-- The command of a row with the operands in `f`, legal or not (30_encoding R61 step (4)). -/
def commandOf (op : Op) (f : Fields) : Instr :=
  match op with
  | .load => .load (regOfField f.bd) f.a f.b
  | .store => .store (regOfField f.bs1)
  | .len => .len (regOfField f.bs1)
  | .slice => .slice (regOfField f.bd) (regOfField f.bs1) f.a f.b
  | .concat => .concat (regOfField f.bd) (regOfField f.bs1) (regOfField f.bs2)
  | .equal => .equal (regOfField f.bs1) (regOfField f.bs2)
  | .mkhdr => .mkhdr (regOfField f.bd) f.a f.w
  | .rdhdr => .rdhdr (regOfField f.bs1) f.a f.w
  | .encch => .encch (regOfField f.bd) (regOfField f.bs1) f.cnt f.w
  | .decch => .decch (regOfField f.bd) (regOfField f.bs1) f.cnt f.w
  | .encls => .encls (regOfField f.bd) (regOfField f.bs1) f.cnt f.w
  | .decls => .decls (regOfField f.bd) (regOfField f.bs1) f.w

@[simp] theorem opOf_commandOf (op : Op) (f : Fields) : opOf (commandOf op f) = op := by
  cases op <;> rfl

@[simp] theorem commandOf_fieldsOf (i : Instr) : commandOf (opOf i) (fieldsOf i) = i := by
  cases i <;> simp [opOf, commandOf, fieldsOf]

@[simp] theorem ofWord_encode (i : Instr) : Fields.ofWord (encode i) = fieldsOf i := Fields.ofWord_toWord _

/-- A word is the encoding of a command when its fields are the command's. -/
theorem encode_eq_iff {i : Instr} {c : CmdWord} : encode i = c ↔ Fields.ofWord c = fieldsOf i :=
  ⟨fun h => by rw [← h, ofWord_encode], fun h => by rw [encode, ← h, Fields.toWord_ofWord]⟩

theorem needWidth_eq_ok_iff {w : BitVec 4} {rest : Except Illegal Instr} {i : Instr} :
    needWidth w rest = .ok i ↔ w ≠ 0 ∧ rest = .ok i := by
  unfold needWidth
  split <;> simp_all

theorem needRange_eq_ok_iff {why : Illegal} {base : BitVec 4} {cnt : BitVec 8} {rest : Except Illegal Instr} {i : Instr} :
    needRange why base cnt rest = .ok i ↔ base.toNat + cnt.toNat ≤ 16 ∧ rest = .ok i := by
  unfold needRange
  split <;> simp_all

/-- Steps (3) and (4) of 30_encoding R61 answer the command of the row when the row's condition of R58 is met. -/
theorem operandsOf_eq_ok_iff {op : Op} {c : CmdWord} {i : Instr} :
    operandsOf op (Fields.ofWord c) = .ok i ↔ legalIf op c ∧ commandOf op (Fields.ofWord c) = i := by
  cases op <;>
    simp [operandsOf, needWidth_eq_ok_iff, needRange_eq_ok_iff, legalIf, commandOf, Fields.ofWord, and_assoc]

/-- The condition of a command's row, on its own word, is the condition on its operands (30_encoding R58). -/
theorem legalIf_encode_iff (i : Instr) : legalIf (opOf i) (encode i) ↔ i.wellFormed = true := by
  have hw : (encode i).extractLsb' 72 4 = (fieldsOf i).w := congrArg Fields.w (ofWord_encode i)
  have hcnt : (encode i).extractLsb' 64 8 = (fieldsOf i).cnt := congrArg Fields.cnt (ofWord_encode i)
  have hbs1 : (encode i).extractLsb' 80 4 = (fieldsOf i).bs1 := congrArg Fields.bs1 (ofWord_encode i)
  have hbd : (encode i).extractLsb' 84 4 = (fieldsOf i).bd := congrArg Fields.bd (ofWord_encode i)
  cases i <;> simp only [legalIf, opOf, hw, hcnt, hbs1, hbd] <;> simp [fieldsOf, Instr.wellFormed]

/-! ### The rows of the opcode table (30_encoding R57) -/

/-- A word is selected by a mask and a match when its fields are, each under the mask's field. -/
theorem select_iff_fields (c mask pattern : CmdWord) :
    c &&& mask = pattern ↔ (Fields.ofWord c).and (Fields.ofWord mask) = Fields.ofWord pattern := by
  rw [← Fields.select_iff, Fields.toWord_ofWord, Fields.toWord_ofWord, Fields.toWord_ofWord]

/-- A mask of ones keeps a field whole. -/
theorem and_ones4 (v : BitVec 4) : v &&& 15#4 = v := BitVec.and_allOnes

theorem and_ones8 (v : BitVec 8) : v &&& 255#8 = v := BitVec.and_allOnes

theorem and_ones32 (v : BitVec 32) : v &&& 4294967295#32 = v := BitVec.and_allOnes

/-- Every command has a row of its own. -/
theorem exists_row (op : Op) : ∃ row ∈ opcodeTable, row.op = op := by
  cases op <;> decide

/-- A row selects the words of its own command: those whose used fields may be anything, whose opcode is the row's and whose
reserved fields are zero (30_encoding R56, R57). -/
theorem encode_commandOf_iff {row : OpcodeRow} (hrow : row ∈ opcodeTable) (c : CmdWord) :
    encode (commandOf row.op (Fields.ofWord c)) = c ↔ c &&& row.mask = row.pattern := by
  rw [select_iff_fields, encode_eq_iff]
  generalize Fields.ofWord c = f
  obtain ⟨opcode, bd, bs1, bs2, w, cnt, a, b⟩ := f
  simp only [opcodeTable, List.mem_cons, List.not_mem_nil, or_false] at hrow
  rcases hrow with rfl | rfl | rfl | rfl | rfl | rfl | rfl | rfl | rfl | rfl | rfl | rfl <;>
    simp [commandOf, fieldsOf, Fields.and, Fields.ofWord, and_ones4, and_ones8, and_ones32]

/-- The opcode of a row's commands finds that row: no two rows have the same opcode (30_encoding R57). -/
theorem rowOf_opcode_commandOf {row : OpcodeRow} (hrow : row ∈ opcodeTable) (f : Fields) :
    rowOf (fieldsOf (commandOf row.op f)).opcode = some row := by
  revert row
  simp only [opcodeTable, List.forall_mem_cons, List.not_mem_nil, false_imp_iff, implies_true, commandOf, fieldsOf]
  decide

/-- The row that selects a word is the row of the word's opcode (30_encoding R61 steps (1) and (2)). -/
theorem rowOf_of_select {row : OpcodeRow} (hrow : row ∈ opcodeTable) {c : CmdWord} (hc : c &&& row.mask = row.pattern) :
    rowOf (Fields.ofWord c).opcode = some row := by
  rw [encode_eq_iff.1 ((encode_commandOf_iff hrow c).2 hc)]
  exact rowOf_opcode_commandOf hrow _

/-- The row of an opcode is a row of the table. -/
theorem mem_of_rowOf {opcode : BitVec 8} {row : OpcodeRow} (h : rowOf opcode = some row) : row ∈ opcodeTable :=
  List.mem_of_find?_eq_some h

/-- The decoder reads a word by the row that selects it, when the row's condition is met (30_encoding R57, R58, R61). -/
theorem decode_eq_ok_iff_row {c : CmdWord} {i : Instr} :
    decode c = .ok i ↔
      ∃ row ∈ opcodeTable, c &&& row.mask = row.pattern ∧ legalIf row.op c ∧ commandOf row.op (Fields.ofWord c) = i := by
  unfold decode
  constructor
  · intro h
    split at h
    · cases h
    · rename_i row hrow
      split at h
      · exact ⟨row, mem_of_rowOf hrow, ‹_›, operandsOf_eq_ok_iff.1 h⟩
      · cases h
  · rintro ⟨row, hrow, hc, hoperands⟩
    simp only [rowOf_of_select hrow hc, hc, if_true]
    exact operandsOf_eq_ok_iff.2 hoperands

/-- A word decodes to a command exactly when the command is legal and the word is its encoding. -/
theorem decode_eq_ok_iff {c : CmdWord} {i : Instr} : decode c = .ok i ↔ i.wellFormed = true ∧ encode i = c := by
  rw [decode_eq_ok_iff_row]
  constructor
  · rintro ⟨row, hrow, hc, hlegal, rfl⟩
    have hword := (encode_commandOf_iff hrow c).2 hc
    refine ⟨(legalIf_encode_iff _).1 ?_, hword⟩
    rwa [opOf_commandOf, hword]
  · rintro ⟨hwf, rfl⟩
    obtain ⟨row, hrow, hop⟩ := exists_row (opOf i)
    have hi : commandOf row.op (Fields.ofWord (encode i)) = i := by rw [hop, ofWord_encode, commandOf_fieldsOf]
    refine ⟨row, hrow, (encode_commandOf_iff hrow _).1 (congrArg encode hi), ?_, hi⟩
    rw [hop]
    exact (legalIf_encode_iff i).2 hwf

/-! ### The statements on the decoder -/

/-- Settles O1: a legal command is what its own encoding decodes to. -/
theorem decodeEncodeRoundTrip : Obligations.DecodeEncodeRoundTrip := fun _ hwf => decode_eq_ok_iff.2 ⟨hwf, rfl⟩

/-- Settles O2: the command that a word decodes to is legal and encodes to that word. -/
theorem everyDecodedWordIsItsEncoding : Obligations.EveryDecodedWordIsItsEncoding := fun _ _ => decode_eq_ok_iff.1

/-- Settles O3: the row that selects a word is the one the decoder reads it by, and a row reads some command off any word. -/
theorem legalWordsAreTheOpcodeTable : Obligations.LegalWordsAreTheOpcodeTable := by
  intro c
  constructor
  · rintro ⟨i, h⟩
    obtain ⟨row, hrow, hc, hlegal, -⟩ := decode_eq_ok_iff_row.1 h
    exact ⟨row, hrow, hc, hlegal⟩
  · rintro ⟨row, hrow, hc, hlegal⟩
    exact ⟨_, decode_eq_ok_iff_row.2 ⟨row, hrow, hc, hlegal, rfl⟩⟩

/-- Settles O5: each of the commands is legal and encodes to its word, which is computed. -/
theorem workedEncodingsDecode : Obligations.WorkedEncodingsDecode := by
  simp only [Obligations.WorkedEncodingsDecode, decode_eq_ok_iff]
  decide

/-- Settles O7: the word is refused before anything else is looked at, and raising changes no register and no latch. -/
theorem illegalWordFails : Obligations.IllegalWordFails := by
  intro s request later why hmove hreset hword
  simp only [step, hmove, hreset, hword, Bool.false_eq_true, if_false]
  exact raise_failed .illegalCommand s (by decide)

/-! ### The pseudo-commands (30_encoding R64 to R66)

CLR, MOV and REST each end as a command that writes one register and completes. -/

/-- What completing does after one register was written. -/
theorem complete_setReg (s : State) (bd : BReg) (x : BitString) :
    ∃ t, complete [] (s.setReg bd x) = .next t ∧ Completed s t [] ∧ t.reg bd = x ∧ SameRegsBut bd s t ∧ SameLatches s t :=
  ⟨_, complete_eq _ _, answer_completed [] rfl rfl, by simp, fun r hr => by simp [s.reg_setReg_ne x hr], rfl, rfl⟩

/-- CLR writes EMPTY (30_encoding R64). -/
theorem exec_pseudoClr {s : State} (hdin : s.din = []) (bd : BReg) :
    exec (pseudoClr bd) s = complete [] (s.setReg bd BitString.empty) := by
  simp [pseudoClr, exec, execLoad, loadAt, sext32, hdin, chop, BitString.empty]

/-- A range of one register. -/
theorem State.range_one (s : State) (r : BReg) : s.range r 1 = [s.reg r] := by
  have hlength := s.range_length r 1 (by omega)
  refine List.ext_getElem hlength fun i hi hi1 => ?_
  have hzero : i = 0 := by simpa using hi1
  rw [s.range_getElem r 1 i hi r (by omega)]
  simp [hzero]

/-- MOV writes the source, which fits: a last chunk has no header (30_encoding R65, 42_framing R101). -/
theorem exec_pseudoMov {s : State} (bd bs1 : BReg) (hfits : (s.reg bs1).Fits) :
    exec (pseudoMov bd bs1) s = complete [] (s.setReg bd (s.reg bs1)) := by
  have hlegal : (widthLegal 4 && rangeLegal bs1 1) = true := by simp [widthLegal, rangeLegal, countOf]
  have hencode : encodeChunks (s.range bs1 (countOf 1)) (widthOf 4) = .ok (s.reg bs1) :=
    congrArg (encodeChunks · 4) (s.range_one bs1)
  simp only [pseudoMov, exec, execEncch, encchAt, hlegal, if_true, hencode, writeWithin, if_neg (not_lt.2 hfits.2)]

/-- All bits of a canonical BitString are that BitString (10_state R18). -/
theorem sub_zero_len {x : BitString} (hx : x.Canonical) : sub x 0 x.len = x := by
  have hbits : (x.bits.drop 0).take (x.len - 0) = x.bits := by simp [List.take_of_length_le]
  rw [sub, hbits, mk_bits hx]

/-- Writing a range of one register. -/
theorem State.setRange_singleton (s : State) (r : BReg) (x : BitString) : s.setRange r [x] = s.setReg r x := by
  have hregs : (s.setRange r [x]).b = (s.setReg r x).b := State.b_ext fun q => by
    by_cases hq : q = r
    · rw [hq, s.reg_setRange_mem r r [x] 0 (by simp) rfl, s.reg_setReg_self]
      rfl
    · rw [s.reg_setReg_ne x hq, s.reg_setRange_not_mem r q [x] (by simp; omega)]
  exact congrArg (fun b => { s with b := b }) hregs

/-- REST writes all bits of the source, which is canonical: a last chunk has no header (30_encoding R66, 42_framing R105). -/
theorem exec_pseudoRest {s : State} (bd bs1 : BReg) (hcanonical : (s.reg bs1).Canonical) :
    exec (pseudoRest bd bs1) s = complete [] (s.setReg bd (s.reg bs1)) := by
  have hlegal : (widthLegal 4 && rangeLegal bd 1) = true := by simp [widthLegal, rangeLegal, countOf]
  have hdecode : decodeChunks (s.reg bs1) (countOf 1) (widthOf 4) = .ok [s.reg bs1] :=
    congrArg (fun x => Except.ok [x]) (sub_zero_len hcanonical)
  simp only [pseudoRest, exec, execDecch, hlegal, if_true, hdecode, State.setRange_singleton]

/-- Settles O59: each of the three completes with one register written. -/
theorem pseudoCommands : Obligations.PseudoCommands := by
  intro bd bs1 s hs
  refine ⟨fun hdin => ?_, ?_, ?_⟩
  · rw [exec_pseudoClr hdin]
    exact complete_setReg _ _ _
  · rw [exec_pseudoMov bd bs1 (hs bs1)]
    exact complete_setReg _ _ _
  · rw [exec_pseudoRest bd bs1 (hs bs1).1]
    exact complete_setReg _ _ _

end Sys2Proof.Machine

/-! The Bit Buffer (40_bitbuffer): what each of its functions holds bit by bit, from which the commands LOAD to EQUAL, the
laws of slice and concat and the byte-level datapaths follow. Canonical
BitStrings are shown equal by their bits. -/

namespace Sys2Proof.Machine

/-! ### Bits of byte sequences (20_memory R32) -/

/-- Bit `i`, counted from the most significant, of byte `j`. -/
theorem byteAt_bit (t : List Byte) (j : Nat) {i : Nat} (hi : i < 8) :
    (byteAt t j).getLsbD (7 - i) = bitAt t (8 * j + i) := by
  have hbyte : (8 * j + i) / 8 = j := by omega
  have hoffset : (8 * j + i) % 8 = i := by omega
  rw [bitAt, hbyte, hoffset]

theorem byteAt_take {t : List Byte} {j k : Nat} (h : j < k) : byteAt (t.take k) j = byteAt t j := by
  simp [byteAt, List.getD, List.getElem?_take_of_lt h]

theorem bitAt_take {t : List Byte} {p k : Nat} (h : p < 8 * k) : bitAt (t.take k) p = bitAt t p := by
  rw [bitAt, bitAt, byteAt_take (by omega)]

theorem bitAt_drop (t : List Byte) (k p : Nat) : bitAt (t.drop k) p = bitAt t (8 * k + p) := by
  have hbyte : (8 * k + p) / 8 = k + p / 8 := by omega
  have hoffset : (8 * k + p) % 8 = p % 8 := by omega
  simp [bitAt, byteAt, List.getD, hbyte, hoffset]

theorem bitAt_append (t u : List Byte) (p : Nat) :
    bitAt (t ++ u) p = if p < 8 * t.length then bitAt t p else bitAt u (p - 8 * t.length) := by
  split
  · have hbyte : p / 8 < t.length := by omega
    simp [bitAt, byteAt, List.getD, hbyte, List.getElem?_append_left hbyte]
  · have hbyte : t.length ≤ p / 8 := by omega
    have hbyte' : (p - 8 * t.length) / 8 = p / 8 - t.length := by omega
    have hoffset : (p - 8 * t.length) % 8 = p % 8 := by omega
    simp [bitAt, byteAt, List.getD, hbyte', hoffset, List.getElem?_append_right hbyte]

/-- Bit `p` of the bytes `f 0` to `f (m - 1)`. -/
theorem bitAt_map_range (f : Nat → Byte) {m p : Nat} (h : p < 8 * m) :
    bitAt ((List.range m).map f) p = (f (p / 8)).getLsbD (7 - p % 8) := by
  have hbyte : p / 8 < m := by omega
  simp [bitAt, byteAt, List.getD, hbyte]

/-- Whole bytes have no padding (10_state R17). -/
theorem wholeBytes_canonical (t : List Byte) : (⟨t, 8 * t.length⟩ : BitString).Canonical := by
  have hsize : t.length = ceil8 (8 * t.length) := by unfold ceil8; omega
  exact ⟨hsize, fun hpad => absurd (Nat.mul_mod_right 8 t.length) hpad⟩

theorem BitString.Canonical.len_le {x : BitString} (hx : x.Canonical) : x.len ≤ 8 * x.store.length :=
  (ceil8_le_iff _ _).1 hx.1.ge

/-! ### The value that given bits determine (10_state R18) -/

theorem HoldsBits.ext {x y : BitString} {n : Nat} {f : Nat → Bool} (hx : HoldsBits x n f) (hy : HoldsBits y n f) :
    x = y := by
  obtain ⟨hcx, hlx, hbx⟩ := hx
  obtain ⟨hcy, hly, hby⟩ := hy
  exact canonical_ext hcx hcy (hlx.trans hly.symm) fun p hp => (hbx p (hlx ▸ hp)).trans (hby p (hlx ▸ hp)).symm

theorem HoldsBits.congr {x : BitString} {n : Nat} {f g : Nat → Bool} (hx : HoldsBits x n f)
    (h : ∀ p, p < n → f p = g p) : HoldsBits x n g := by
  obtain ⟨hcanonical, hlen, hbit⟩ := hx
  exact ⟨hcanonical, hlen, fun p hp => (hbit p hp).trans (h p hp)⟩

theorem BitString.Canonical.holdsBits {x : BitString} (hx : x.Canonical) : HoldsBits x x.len x.bit :=
  ⟨hx, rfl, fun _ _ => rfl⟩

/-! ### chop (40_bitbuffer R69, R70) -/

theorem holdsBits_chop {t : List Byte} {n : Nat} (h : n ≤ 8 * t.length) : HoldsBits ⟨chop t n, n⟩ n (bitAt t) := by
  refine ⟨chop_canonical h, rfl, fun p hp => ?_⟩
  rw [BitString.bit, bitAt_chop h, decide_eq_true hp, Bool.true_and]

theorem chop_store {x : BitString} (hx : x.Canonical) : chop x.store x.len = x.store :=
  congrArg BitString.store ((holdsBits_chop hx.len_le).ext hx.holdsBits)

/-- Settles O32: the bits of chop decide the first two parts, and a chopped store is canonical, so that chop leaves it. -/
theorem chopKeepsExactlyTheBits : Obligations.ChopKeepsExactlyTheBits :=
  ⟨fun _ _ h => ⟨holdsBits_chop h, chop_store (chop_canonical h)⟩, fun _ => chop_store⟩

/-! ### The contracts bit by bit (40_bitbuffer R75, R78, R81) -/

theorem holdsBits_sub {x : BitString} {s e : Nat} (h : e ≤ x.len) :
    HoldsBits (sub x s e) (e - s) fun p => x.bit (s + p) :=
  ⟨sub_canonical x s e, sub_len h, fun _ => bit_sub h⟩

theorem bit_concat {x y : BitString} {p : Nat} (h : p < x.len + y.len) :
    (concat x y).bit p = if p < x.len then x.bit p else y.bit (p - x.len) := by
  have hp : p < (x.bits ++ y.bits).length := by simpa using h
  rw [concat, bit_mk _ hp, List.getElem_append]
  simp only [bits_length, bits_getElem, dite_eq_ite]

theorem holdsBits_concat (x y : BitString) :
    HoldsBits (concat x y) (x.len + y.len) fun p => if p < x.len then x.bit p else y.bit (p - x.len) :=
  ⟨concat_canonical x y, concat_len x y, fun _ => bit_concat⟩

theorem slice_eq_ok {x : BitString} {s e : Int} (h : ¬ (s < 0 ∨ e < s ∨ e > x.len)) :
    slice x s e = .ok (sub x s.toNat e.toNat) := if_neg h

theorem slice_eq_error {x : BitString} {s e : Int} (h : s < 0 ∨ e < s ∨ e > x.len) :
    slice x s e = .error ⟨.rangeError, 0⟩ := if_pos h

/-- The contract of equal is equality of the bit sequences, whose lengths are those of the BitStrings. -/
theorem equal_iff_bits {x y : BitString} : equal x y = true ↔ x.bits = y.bits := by
  simp only [equal, Bool.and_eq_true, beq_iff_eq, and_iff_right_iff_imp]
  intro h
  rw [← bits_length x, h, bits_length]

theorem equal_iff_bit {x y : BitString} :
    equal x y = true ↔ x.len = y.len ∧ ∀ p, p < x.len → x.bit p = y.bit p := by
  rw [equal_iff_bits, List.ext_getElem_iff]
  simp only [bits_length, bits_getElem]
  exact and_congr_right fun hlen => ⟨fun h p hp => h p hp (hlen ▸ hp), fun h p hp _ => h p hp⟩

theorem equal_iff_eq {x y : BitString} (hx : x.Canonical) (hy : y.Canonical) : equal x y = true ↔ x = y := by
  rw [equal_iff_bits]
  exact ⟨fun h => by rw [← mk_bits hx, h, mk_bits hy], congrArg _⟩

theorem equalBytes_iff_eq (x y : BitString) : equalBytes x y = true ↔ x = y := by
  cases x; cases y
  simp [equalBytes, and_comm]

/-- Settles O35: either equality is being the same value. -/
theorem byteEqualityMeetsContract : Obligations.ByteEqualityMeetsContract := fun x y hx hy =>
  ⟨Bool.eq_iff_iff.2 ((equalBytes_iff_eq x y).trans (equal_iff_eq hx hy).symm), equal_iff_eq hx hy⟩

/-! ### The laws of slice and concat (40_bitbuffer R84) -/

theorem slice_natCast {x : BitString} {s e : Nat} (hse : s ≤ e) (he : e ≤ x.len) : slice x s e = .ok (sub x s e) :=
  slice_eq_ok (by omega)

theorem binstr_sub (x : BitString) (s e : Nat) : binstr (sub x s e) = ((binstr x).drop s).take (e - s) := by
  simp only [binstr, bits_sub, List.map_take, List.map_drop]

theorem binstr_concat (x y : BitString) : binstr (concat x y) = binstr x ++ binstr y := by
  simp only [binstr, bits_concat, List.map_append]

theorem concat_assoc (x y z : BitString) : concat x (concat y z) = concat (concat x y) z := by
  simp only [concat, bits_mk, List.append_assoc]

theorem equal_concat_empty (x : BitString) : equal (concat x BitString.empty) x = true := by
  simp [equal_iff_bits]

theorem empty_concat {x : BitString} (hx : x.Canonical) : concat BitString.empty x = x := mk_bits hx

theorem sub_concat_left {x : BitString} (hx : x.Canonical) (y : BitString) : sub (concat x y) 0 x.len = x := by
  have hbits : ((x.bits ++ y.bits).drop 0).take (x.len - 0) = x.bits := List.take_left' (bits_length x)
  rw [sub, bits_concat, hbits, mk_bits hx]

theorem sub_concat_right (x : BitString) {y : BitString} (hy : y.Canonical) :
    sub (concat x y) x.len (x.len + y.len) = y := by
  have hbits : ((x.bits ++ y.bits).drop x.len).take (x.len + y.len - x.len) = y.bits := by
    rw [List.drop_left' (bits_length x), List.take_of_length_le (by simp)]
  rw [sub, bits_concat, hbits, mk_bits hy]

theorem concat_sub_sub {x : BitString} (hx : x.Canonical) (s : Nat) : concat (sub x 0 s) (sub x s x.len) = x := by
  have hbits : (x.bits.drop 0).take (s - 0) ++ (x.bits.drop s).take (x.len - s) = x.bits := by
    rw [List.take_of_length_le (l := x.bits.drop s) (by simp)]
    exact List.take_append_drop s x.bits
  rw [concat, bits_sub, bits_sub, hbits, mk_bits hx]

theorem sub_of_sub (x : BitString) (a : Nat) {b c d : Nat} (h : d ≤ b - a) :
    sub (sub x a b) c d = sub x (a + c) (a + d) := by
  have hlength : min (d - c) (b - a - c) = a + d - (a + c) := by omega
  rw [sub, bits_sub, List.drop_take, List.take_take, List.drop_drop, hlength, sub]

/-- Settles O36: each law is one of lists of bits. -/
theorem bitBufferLaws : Obligations.BitBufferLaws :=
  ⟨fun x s e hse he => ⟨slice_natCast hse he, binstr_sub x s e⟩, binstr_concat,
    fun x y z => equal_iff_bits.2 (congrArg _ (concat_assoc x y z)), equal_concat_empty,
    fun x y hx hy => ⟨empty_concat hx, sub_concat_left hx y, sub_concat_right x hy⟩,
    fun _ s hx _ => concat_sub_sub hx s, fun x a _ _ _ _ _ _ h => sub_of_sub x a h⟩

/-! ### The datapaths (40_bitbuffer R76, R79; 70_reset_and_hazards R137 to R139)

Both shift bytes by fewer than 8 offsets, with carry from the next byte, and chop the array that comes of it. Each is its
contract because its array begins with the contract's bits. -/

/-- The bits that come in from byte `j + 1` in a shift by `k` offsets. -/
theorem carryIn_bit (t : List Byte) {k i : Nat} (j : Nat) (hk : k < 8) (hi : i < 8) :
    (byteAt t (j + 1) >>> (8 - k)).getLsbD (7 - i) = (decide (8 ≤ k + i) && bitAt t (8 * j + k + i)) := by
  rw [BitVec.getLsbD_ushiftRight]
  by_cases hcarry : 8 ≤ k + i
  · have hbit : 8 - k + (7 - i) = 7 - (k + i - 8) := by omega
    have hpos : 8 * (j + 1) + (k + i - 8) = 8 * j + k + i := by omega
    rw [hbit, byteAt_bit _ _ (by omega), hpos, decide_eq_true hcarry, Bool.true_and]
  · rw [BitVec.getLsbD_of_ge _ _ (by omega), decide_eq_false hcarry, Bool.false_and]

/-- The inter-byte shift moves every bit `k` offsets toward offset 0 (70_reset_and_hazards R137). -/
theorem carryByte_bit (t : List Byte) {k i : Nat} (j : Nat) (hk : k < 8) (hi : i < 8) :
    (carryByte t k j).getLsbD (7 - i) = bitAt t (8 * j + k + i) := by
  rw [carryByte, BitVec.getLsbD_or, carryIn_bit t j hk hi, BitVec.getLsbD_shiftLeft]
  by_cases hcarry : 8 ≤ k + i
  · have hlow : 7 - i < k := by omega
    simp [hcarry, hlow]
  · have hbit : 7 - i - k = 7 - (k + i) := by omega
    have hlow : ¬ 7 - i < k := by omega
    have hin : 7 - i < 8 := by omega
    rw [hbit, byteAt_bit _ _ (by omega)]
    simp [hcarry, hlow, hin, Nat.add_assoc]

/-- The slice datapath's array before the chop (40_bitbuffer R76): the covering bytes and one byte 0, shifted. -/
def sliceArray (x : BitString) (s e : Nat) : List Byte :=
  (List.range (ceil8 e - s / 8)).map (carryByte ((x.store.drop (s / 8)).take (ceil8 e - s / 8) ++ [0]) (s % 8))

theorem sliceDatapath_eq {x : BitString} {s e : Nat} (h : e - s ≠ 0) :
    sliceDatapath x s e = ⟨chop (sliceArray x s e) (e - s), e - s⟩ := if_neg h

theorem le_sliceArray_length (x : BitString) (s e : Nat) : e - s ≤ 8 * (sliceArray x s e).length := by
  have hcover : e ≤ 8 * ceil8 e := (ceil8_le_iff _ _).1 le_rfl
  simp only [sliceArray, List.length_map, List.length_range]
  omega

theorem bitAt_sliceArray {x : BitString} {s e p : Nat} (hx : x.Canonical) (he : e ≤ x.len) (hp : s + p < e) :
    bitAt (sliceArray x s e) p = x.bit (s + p) := by
  have hlast := div_lt_ceil8 hp
  have hlength : ceil8 e ≤ x.store.length := (ceil8_le_iff _ _).2 (he.trans hx.len_le)
  have hpos : 8 * (p / 8) + s % 8 + p % 8 = s % 8 + p := by omega
  have hstore : 8 * (s / 8) + (s % 8 + p) = s + p := by omega
  rw [sliceArray, bitAt_map_range _ (by omega), carryByte_bit _ _ (by omega) (by omega), hpos, bitAt_append,
    if_pos (by simp; omega), bitAt_take (by omega), bitAt_drop, hstore, BitString.bit]

/-- Settles O33: an empty range gives EMPTY on both sides; otherwise the array holds the bits of the range. -/
theorem sliceDatapathMeetsContract : Obligations.SliceDatapathMeetsContract := by
  intro x s e hx hse he
  by_cases hempty : e - s = 0
  · simp [sliceDatapath, sub, hempty, mk_nil]
  · rw [sliceDatapath_eq hempty]
    exact ((holdsBits_chop (le_sliceArray_length x s e)).congr fun p hp => bitAt_sliceArray hx he (by omega)).ext
      (holdsBits_sub he)

/-- The concat datapath's array before the chop (40_bitbuffer R79). -/
def concatArray (x y : BitString) : List Byte :=
  (List.range (ceil8 x.len + ceil8 y.len)).map
    (concatByte (x.store ++ y.store ++ [0]) (ceil8 x.len) ((8 - x.len % 8) % 8))

theorem concatDatapath_eq (x y : BitString) :
    concatDatapath x y = ⟨chop (concatArray x y) (x.len + y.len), x.len + y.len⟩ := rfl

theorem le_concatArray_length (x y : BitString) : x.len + y.len ≤ 8 * (concatArray x y).length := by
  simp only [concatArray, List.length_map, List.length_range, ceil8]
  omega

/-- A bit of the two stores in a row. -/
theorem bitAt_stores {x y : BitString} {q : Nat} (hx : x.Canonical) (hy : y.Canonical)
    (hq : q < 8 * ceil8 x.len + y.len) :
    bitAt (x.store ++ y.store ++ [0]) q = if q < 8 * ceil8 x.len then x.bit q else y.bit (q - 8 * ceil8 x.len) := by
  have hinside : q < 8 * (x.store ++ y.store).length := by
    have := hy.len_le
    rw [List.length_append, hx.1]
    omega
  rw [bitAt_append, if_pos hinside, bitAt_append, hx.1, BitString.bit, BitString.bit]

/-- The left operand's bytes end in `k` padding bits, which are zero, so the OR into the last of them adds the first bits of
the right operand, which the shift by `k` moves down to offset `x.len`. -/
theorem bitAt_concatArray {x y : BitString} {p : Nat} (hx : x.Canonical) (hy : y.Canonical) (hp : p < x.len + y.len) :
    bitAt (concatArray x y) p = if p < x.len then x.bit p else y.bit (p - x.len) := by
  have hsize : p < 8 * (ceil8 x.len + ceil8 y.len) := by unfold ceil8; omega
  have hpad : 8 * ceil8 x.len = x.len + (8 - x.len % 8) % 8 := by unfold ceil8; omega
  have hk : (8 - x.len % 8) % 8 < 8 := Nat.mod_lt _ (by decide)
  rw [concatArray, bitAt_map_range _ hsize, concatByte]
  generalize (8 - x.len % 8) % 8 = k at hpad hk
  have hstay : 8 * (p / 8) + p % 8 = p := by omega
  have hmove : 8 * (p / 8) + k + p % 8 = p + k := by omega
  have hright (h : x.len ≤ p) : bitAt (x.store ++ y.store ++ [0]) (p + k) = y.bit (p - x.len) := by
    rw [bitAt_stores hx hy (by omega), if_neg (by omega)]
    congr 1
    omega
  have hleft (h : p < 8 * ceil8 x.len) : bitAt (x.store ++ y.store ++ [0]) p = x.bit p := by
    rw [bitAt_stores hx hy (by omega), if_pos h]
  split
  · rw [byteAt_bit _ _ (by omega), hstay, hleft (by omega), if_pos (by omega)]
  split
  · rename_i hlast
    rw [← hlast, BitVec.getLsbD_or, byteAt_bit _ _ (by omega), carryIn_bit _ _ hk (by omega), hstay, hmove,
      hleft (by omega)]
    split
    · have hno : ¬ 8 ≤ k + p % 8 := by omega
      rw [decide_eq_false hno, Bool.false_and, Bool.or_false]
    · have hcarry : 8 ≤ k + p % 8 := by omega
      have hzero : x.bit p = false := ((canonical_iff x).1 hx).2 p (by omega)
      rw [hzero, hright (by omega), decide_eq_true hcarry, Bool.false_or, Bool.true_and]
  · rw [carryByte_bit _ _ hk (by omega), hmove, hright (by omega), if_neg (by omega)]

/-- Settles O34: the array holds the bits of the concatenation. -/
theorem concatDatapathMeetsContract : Obligations.ConcatDatapathMeetsContract := by
  intro x y hx hy
  rw [concatDatapath_eq]
  exact ((holdsBits_chop (le_concatArray_length x y)).congr fun p => bitAt_concatArray hx hy).ext (holdsBits_concat x y)

/-! ### The commands (40_bitbuffer R71 to R82) -/

/-- A command that ends by writing bits to one register. -/
theorem complete_setReg_holdsBits (s : State) (bd : BReg) {x : BitString} {n : Nat} {f : Nat → Bool}
    (hx : HoldsBits x n f) :
    ∃ t, complete [] (s.setReg bd x) = .next t ∧ Completed s t [] ∧ HoldsBits (t.reg bd) n f ∧ SameRegsBut bd s t ∧
      SameLatches s t := by
  obtain ⟨t, ht, hend, hreg, hframe⟩ := complete_setReg s bd x
  exact ⟨t, ht, hend, hreg ▸ hx, hframe⟩

/-- The bits that LOAD keeps are read from the bytes that it keeps. -/
theorem holdsBits_chop_memRead {s : State} {n : Nat} (h : n ≤ 8 * s.din.length) :
    HoldsBits ⟨chop (memRead s 0 (ceil8 n)) n, n⟩ n (bitAt s.din) := by
  have hkept : n ≤ 8 * ceil8 n := (ceil8_le_iff _ _).1 le_rfl
  exact (holdsBits_chop (t := s.din.take (ceil8 n)) (by simp; omega)).congr fun p hp => bitAt_take (by omega)

/-- Settles O23: the two tests of LOAD pass and one register is written. -/
theorem loadCompletes : Obligations.LoadCompletes := by
  intro bd nbits nbytes s hbits hbytes hdin hrange hcap
  have hlegal : ¬ (sext32 nbits < 0 ∨ sext32 nbytes < 0 ∨ (s.din.length : Int) ≠ sext32 nbytes ∨
      sext32 nbits > 8 * sext32 nbytes) := by omega
  have hfits : ¬ (sext32 nbits).toNat > Config.maxBits := by omega
  simp only [exec, execLoad, loadAt, if_neg hlegal, if_neg hfits]
  exact complete_setReg_holdsBits s bd (holdsBits_chop_memRead (by omega))

/-- Settles O24: the tests of LOAD stand in this order. -/
theorem loadFails : Obligations.LoadFails := by
  intro bd nbits nbytes s
  simp only [exec, execLoad, loadAt]
  split
  · exact raise_failed .rangeError s (by decide)
  · intro hcap
    rw [if_pos (by omega)]
    exact raise_failed .capacityError s (by decide)

/-- What STORE does with a register that meets the invariant, whatever the others hold (40_bitbuffer R73). -/
theorem exec_store_completes {s : State} {bs1 : BReg} (h : (s.reg bs1).Fits) :
    ∃ t, exec (.store bs1) s = .next t ∧ Completed s t (s.reg bs1).store ∧ t.r0.toNat = (s.reg bs1).len ∧
      t.r1.toNat = ceil8 (s.reg bs1).len ∧ t.b = s.b := by
  have hlen : (s.reg bs1).len < 2 ^ 32 := lt_of_le_maxBits h.2
  have hsize : ceil8 (s.reg bs1).len < 2 ^ 32 := by unfold ceil8; omega
  exact ⟨_, complete_eq _ _, answer_completed _ rfl rfl, latch_toNat hlen, latch_toNat hsize, rfl⟩

/-- Settles O25: the invariant gives the register, and its canonical form the number of bytes. -/
theorem storeCompletes : Obligations.StoreCompletes := by
  intro bs1 s hs
  obtain ⟨t, ht, hend, hr0, hr1, hregs⟩ := exec_store_completes (hs bs1)
  exact ⟨t, ht, hend, hr0, hr1, hr1.trans (hs bs1).1.1.symm, hregs⟩

/-- Settles O26: a length up to `MAXBITS` fits the latch. -/
theorem lenCompletes : Obligations.LenCompletes := fun bs1 _ hs =>
  ⟨_, complete_eq _ _, answer_completed _ rfl rfl, latch_toNat (lt_of_le_maxBits (hs bs1).2), rfl, rfl⟩

/-- Settles O27: the contract of slice, written to one register. -/
theorem sliceCompletes : Obligations.SliceCompletes := by
  intro bd bs1 start stop s h0 hse he
  have hlength : (sext32 stop - sext32 start).toNat = (sext32 stop).toNat - (sext32 start).toNat := by omega
  simp only [exec, execSlice, slice_eq_ok (x := s.reg bs1) (s := sext32 start) (e := sext32 stop) (by omega), hlength]
  exact complete_setReg_holdsBits s bd (holdsBits_sub (by omega))

/-- Settles O28: a bad range raises, and any other range completes. -/
theorem sliceRangeError : Obligations.SliceRangeError := by
  refine fun bd bs1 start stop s => ⟨fun hbad => ?_, fun t h hfailed => ?_⟩
  · simp only [exec, execSlice, slice_eq_error hbad]
    exact raise_failed .rangeError s (by decide)
  · by_contra hgood
    obtain ⟨u, hu, ⟨hok, -⟩, -⟩ := sliceCompletes bd bs1 start stop s (by omega) (by omega) (by omega)
    cases h.symm.trans hu
    exact hfailed hok

/-- CONCAT is the contract of concat and the last test of the writing commands (40_bitbuffer R80). -/
theorem exec_concat (bd bs1 bs2 : BReg) (s : State) :
    exec (.concat bd bs1 bs2) s = writeWithin Config.maxBits bd (concat (s.reg bs1) (s.reg bs2)) s := rfl

/-- Settles O29: the length of the concatenation is the sum, which fits. -/
theorem concatCompletes : Obligations.ConcatCompletes := by
  intro bd bs1 bs2 s hfits
  rw [← concat_len] at hfits
  obtain ⟨hcap, -⟩ | ⟨-, hend⟩ := writeWithin_cases Config.maxBits bd (concat (s.reg bs1) (s.reg bs2)) s
  · exact absurd hcap (not_lt.2 hfits)
  · rw [exec_concat, hend]
    exact complete_setReg_holdsBits s bd (holdsBits_concat _ _)

/-- Settles O30: the length of the concatenation is the sum, which does not fit. -/
theorem concatCapacityError : Obligations.ConcatCapacityError := by
  intro bd bs1 bs2 s hcap
  rw [← concat_len] at hcap
  obtain ⟨-, hend⟩ | ⟨hfits, -⟩ := writeWithin_cases Config.maxBits bd (concat (s.reg bs1) (s.reg bs2)) s
  · rw [exec_concat, hend]
    exact raise_failed .capacityError s (by decide)
  · exact absurd hcap (not_lt.2 hfits)

/-- Settles O31: the contract of equal, as a number in `R0`. -/
theorem equalCompletes : Obligations.EqualCompletes := by
  intro bs1 bs2 s
  refine ⟨_, complete_eq _ _, answer_completed _ rfl rfl, rfl, rfl, ?_⟩
  simp only [State.r0_answer, State.r0_setR0, ← equal_iff_bit]
  exact ⟨fun h => if_pos h, fun h => if_neg h⟩

/-! ### LOAD, then STORE (40_bitbuffer R72) -/

theorem sext32_ofNat {n : Nat} (h : n < 2 ^ 31) : sext32 (BitVec.ofNat 32 n) = n := by
  rw [sext32, BitVec.toInt_eq_toNat_of_lt (by simp; omega), BitVec.toNat_ofNat]
  omega

/-- A step on the word of a legal command is that command. -/
theorem step_encode {s : State} {i : Instr} {din : List Byte} {later : List HostMove} (hwf : i.wellFormed = true)
    (hreset : s.resetIn = false) (hmove : s.inputs = .command ⟨encode i, din⟩ :: later) : step s = exec i s :=
  stepRunsDecodedCommand s _ later i hmove hreset (decodeEncodeRoundTrip i hwf)

/-- LOAD of all the bits of DIN leaves the register with DIN as its store. -/
theorem exec_load_wholeBytes (bd : BReg) {s : State} (hcap : 8 * s.din.length ≤ Config.maxBits) :
    ∃ t, exec (.load bd (BitVec.ofNat 32 (8 * s.din.length)) (BitVec.ofNat 32 s.din.length)) s = .next t ∧
      Completed s t [] ∧ t.reg bd = ⟨s.din, 8 * s.din.length⟩ := by
  have hmax := Config.maxBits_le
  have hbits : sext32 (BitVec.ofNat 32 (8 * s.din.length)) = (8 * s.din.length : Nat) := sext32_ofNat (by omega)
  have hbytes : sext32 (BitVec.ofNat 32 s.din.length) = s.din.length := sext32_ofNat (by omega)
  obtain ⟨t, ht, hend, hreg, -⟩ := loadCompletes bd (BitVec.ofNat 32 (8 * s.din.length)) (BitVec.ofNat 32 s.din.length) s
    (by omega) (by omega) (by omega) (by omega) (by omega)
  rw [hbits, Int.toNat_natCast] at hreg
  exact ⟨t, ht, hend, hreg.ext (wholeBytes_canonical s.din).holdsBits⟩

/-- Settles O37: LOAD leaves the register with the bytes as its store, and STORE gives the store. -/
theorem rawBytesRoundTrip : Obligations.RawBytesRoundTrip := by
  intro bd bytes ignored s later hcap hreset hmoves
  obtain rfl : s.din = bytes := by rw [State.din, hmoves]
  obtain ⟨u, hu, ⟨-, -, -, hmoves', hreset'⟩, hreg⟩ := exec_load_wholeBytes bd hcap
  have hfits : (u.reg bd).Fits := hreg ▸ ⟨wholeBytes_canonical _, hcap⟩
  obtain ⟨t, ht, ⟨hok, -, hdout, -⟩, hr0, hr1, -⟩ := exec_store_completes hfits
  rw [hmoves, List.tail_cons] at hmoves'
  rw [hreset] at hreset'
  have hsize : ceil8 (8 * s.din.length) = s.din.length := by unfold ceil8; omega
  rw [hreg] at hdout hr0 hr1
  refine ⟨u, t, (step_encode rfl hreset hmoves).trans hu, (step_encode rfl hreset' hmoves').trans ht, _,
    State.response_of_dout hdout, by rw [hok]; rfl, rfl, hr0, hr1.trans hsize⟩

end Sys2Proof.Machine

/-! The header codec (41_header_codec): the arithmetic of numBits, field_width and size_code; what `create_header` gives and
`read_header` answers, said once each; the round trip and the minimality of the code; and the commands MKHDR and RDHDR. -/

namespace Sys2Proof.Machine

/-! ### The arithmetic (41_header_codec R86 to R88) -/

theorem numBits_of_ne_zero {v : Nat} (h : v ≠ 0) : numBits v = Nat.log2 v + 1 := if_neg h

theorem lt_two_pow_numBits (v : Nat) : v < 2 ^ numBits v := by
  by_cases h : v = 0
  · rw [h]; decide
  · rw [numBits_of_ne_zero h]
    exact Nat.lt_log2_self

/-- Settles O38: numBits is one more than the integer logarithm, which these two bounds determine. -/
theorem numBitsIsTheLeastWidth : Obligations.NumBitsIsTheLeastWidth := by
  refine ⟨rfl, fun v hv => ?_⟩
  have hne : v ≠ 0 := by omega
  rw [numBits_of_ne_zero hne]
  refine ⟨Nat.le_add_left _ _, Nat.log2_self_le hne, Nat.lt_log2_self, fun h hh hlow hhigh => ?_⟩
  obtain ⟨k, rfl⟩ : ∃ k, h = k + 1 := ⟨h - 1, by omega⟩
  exact congrArg (· + 1) ((Nat.log2_eq_iff hne).2 ⟨hlow, hhigh⟩).symm

theorem fieldWidth_of_ne_zero {h : Nat} (hh : h ≠ 0) : fieldWidth h = 2 ^ numBits (h - 1) := if_neg hh

theorem le_fieldWidth (h : Nat) : h ≤ fieldWidth h := by
  by_cases hh : h = 0
  · omega
  · have := lt_two_pow_numBits (h - 1)
    rw [fieldWidth_of_ne_zero hh]
    omega

/-- Settles O39: `h ≤ 2 ^ k` is `h - 1 < 2 ^ k`, and numBits gives the least such exponent. -/
theorem fieldWidthIsTheLeastPowerOfTwo : Obligations.FieldWidthIsTheLeastPowerOfTwo := by
  refine ⟨rfl, fun h hh => ?_⟩
  have hpow := fieldWidth_of_ne_zero (h := h) (by omega)
  exact ⟨numBits (h - 1), hpow, hpow ▸ le_fieldWidth h, fun k hk => numBits_le (by omega)⟩

theorem sizeCode_two_pow (j : Nat) : sizeCode (2 ^ j) = j + 1 := by
  rw [sizeCode, if_neg (Nat.two_pow_pos j).ne', Nat.log2_two_pow]

theorem widthOfCode_of_ne_zero {c : Nat} (h : c ≠ 0) : widthOfCode c = 2 ^ (c - 1) := if_neg h

/-- A size_code is that of the field width it stands for. -/
@[simp] theorem sizeCode_widthOfCode (c : Nat) : sizeCode (widthOfCode c) = c := by
  by_cases h : c = 0
  · rw [h]; rfl
  · rw [widthOfCode_of_ne_zero h, sizeCode_two_pow]
    omega

/-- Every field width has a size_code. -/
theorem exists_widthOfCode_eq_fieldWidth (h : Nat) : ∃ c, widthOfCode c = fieldWidth h := by
  by_cases hh : h = 0
  · exact ⟨0, by rw [hh]; rfl⟩
  · exact ⟨numBits (h - 1) + 1, (fieldWidth_of_ne_zero hh).symm⟩

@[simp] theorem widthOfCode_sizeCode_fieldWidth (h : Nat) : widthOfCode (sizeCode (fieldWidth h)) = fieldWidth h := by
  obtain ⟨c, hc⟩ := exists_widthOfCode_eq_fieldWidth h
  rw [← hc, sizeCode_widthOfCode]

/-- field_width is the least width that a size_code can announce. -/
theorem fieldWidth_le_widthOfCode {h c : Nat} (hc : h ≤ widthOfCode c) : fieldWidth h ≤ widthOfCode c := by
  by_cases hzero : c = 0
  · obtain rfl : h = 0 := by rw [hzero] at hc; exact Nat.le_zero.1 hc
    exact Nat.zero_le _
  · rw [widthOfCode_of_ne_zero hzero] at hc ⊢
    exact fieldWidth_le hc

/-- Settles O40: the width of a code and the code of a width are inverse, and every field width has a code. -/
theorem sizeCodeInvertsFieldWidth : Obligations.SizeCodeInvertsFieldWidth :=
  ⟨rfl, sizeCode_two_pow, rfl, fun _ hc => widthOfCode_of_ne_zero (by omega), widthOfCode_sizeCode_fieldWidth⟩

/-! ### `bits_of` and `uint` (00_scope R13) -/

theorem bitsOf_canonical (v n : Nat) : (bitsOf v n).Canonical := mk_canonical _

theorem holdsBits_bitsOf (v n : Nat) : HoldsBits (bitsOf v n) n fun p => v.testBit (n - 1 - p) := by
  refine ⟨bitsOf_canonical v n, bitsOf_len v n, fun p hp => ?_⟩
  rw [bitsOf, bit_mk _ (by simpa using hp)]
  simp

/-- One more bit at the end is the lowest of the value. -/
theorem uint_mk_append_singleton (l : List Bool) (b : Bool) : uint (mk (l ++ [b])) = 2 * uint (mk l) + b.toNat := by
  simp only [uint, bits_mk, List.foldl_append, List.foldl_cons, List.foldl_nil]

theorem testBit_two_mul_add_toNat_zero (v : Nat) (b : Bool) : (2 * v + b.toNat).testBit 0 = b := by
  cases b <;> simp [Nat.testBit_zero]

theorem testBit_two_mul_add_toNat_succ (v : Nat) (b : Bool) (i : Nat) :
    (2 * v + b.toNat).testBit (i + 1) = v.testBit i := by
  have hhalf : (2 * v + b.toNat) / 2 = v := by have := Bool.toNat_lt b; omega
  rw [Nat.testBit_succ, hhalf]

/-- The bits of the value of some bits are these bits. -/
theorem bits_bitsOf_uint_mk (l : List Bool) : (bitsOf (uint (mk l)) l.length).bits = l := by
  simp only [bitsOf, bits_mk]
  induction l using List.reverseRecOn with
  | nil => rfl
  | append_singleton l b ih =>
    rw [uint_mk_append_singleton, List.length_append, List.length_singleton, List.range_succ, List.map_append]
    congr 1
    · refine Eq.trans (List.map_congr_left fun p hp => ?_) ih
      have hpos : l.length + 1 - 1 - p = l.length - 1 - p + 1 := by have := List.mem_range.1 hp; omega
      rw [hpos, testBit_two_mul_add_toNat_succ]
    · simp only [List.map_cons, List.map_nil, Nat.add_sub_cancel, Nat.sub_self, testBit_two_mul_add_toNat_zero]

/-- `bits_of(uint(x), x.len) = x` (00_scope R13). -/
theorem bitsOf_uint {x : BitString} (hx : x.Canonical) : bitsOf (uint x) x.len = x := by
  have hbits := bits_bitsOf_uint_mk x.bits
  rw [mk_bits hx, bits_length] at hbits
  rw [← mk_bits (bitsOf_canonical (uint x) x.len), hbits, mk_bits hx]

/-! ### Headers (41_header_codec R85)

`headerWith sc L W` is any header: `create_header` gives the one with the least `size_code` that leaves room for the length
(`createHeader_eq_some_iff`), and `read_header` reads them all (`readHeader_headerWith`) and nothing else
(`eq_headerWith_of_readHeader`). -/

/-- The header with the given size_code and length: the code in `W` bits, the length in the field the code announces. -/
def headerWith (sc L W : Nat) : BitString := concat (bitsOf sc W) (bitsOf L (widthOfCode sc))

@[simp] theorem headerWith_len (sc L W : Nat) : (headerWith sc L W).len = W + widthOfCode sc := by simp [headerWith]

/-- The size_code that `create_header` gives a length (41_header_codec R90). -/
def leastCode (L : Nat) : Nat := sizeCode (fieldWidth (numBits L))

@[simp] theorem widthOfCode_leastCode (L : Nat) : widthOfCode (leastCode L) = fieldWidth (numBits L) :=
  widthOfCode_sizeCode_fieldWidth _

theorem createHeader_eq_none {length : Int} {W : Nat} (h : length < 0 ∨ leastCode length.toNat > 2 ^ W - 1) :
    createHeader length W = none := by
  unfold createHeader
  split
  · rfl
  · exact if_pos (h.resolve_left ‹_›)

/-- What `create_header` gives, and when (41_header_codec R90). -/
theorem createHeader_eq_some_iff {length : Int} {W : Nat} {h : BitString} :
    createHeader length W = some h ↔
      0 ≤ length ∧ leastCode length.toNat < 2 ^ W ∧ h = headerWith (leastCode length.toNat) length.toNat W := by
  have hpos := Nat.two_pow_pos W
  by_cases hbad : length < 0 ∨ leastCode length.toNat > 2 ^ W - 1
  · rw [createHeader_eq_none hbad]
    refine ⟨nofun, fun ⟨hlength, hcode, _⟩ => ?_⟩
    omega
  · have hsome : createHeader length W = some (headerWith (leastCode length.toNat) length.toNat W) := by
      rw [headerWith, widthOfCode_leastCode, createHeader, if_neg (by omega)]
      exact if_neg (not_or.1 hbad).2
    rw [hsome, Option.some_inj, eq_comm]
    exact ⟨fun h => ⟨by omega, by omega, h⟩, fun ⟨_, _, h⟩ => h⟩

/-- A length fits the field that its size_code announces. -/
theorem lt_two_pow_widthOfCode_leastCode (L : Nat) : L < 2 ^ widthOfCode (leastCode L) := by
  rw [widthOfCode_leastCode]
  exact (lt_two_pow_numBits L).trans_le (Nat.pow_le_pow_right (by decide) (le_fieldWidth _))

/-! ### Reading a header (41_header_codec R94)

The two branches for `size_code` are one: the field of size_code 0 is empty, so it lies in the buffer and holds 0. -/

theorem uint_sub_self (x : BitString) (o : Nat) : uint (sub x o o) = 0 := by simp [uint]

section
variable {x : BitString} {o W : Nat}

theorem readHeader_eq_ok (h : o + W + widthOfCode (uint (sub x o (o + W))) ≤ x.len) :
    readHeader x o W =
      .ok (o + W + widthOfCode (uint (sub x o (o + W))),
        o + W + widthOfCode (uint (sub x o (o + W))) +
          uint (sub x (o + W) (o + W + widthOfCode (uint (sub x o (o + W)))))) := by
  rw [readHeader, if_neg (by omega)]
  by_cases hcode : uint (sub x o (o + W)) = 0
  · simp [hcode, widthOfCode, uint_sub_self]
  · simp only [if_neg hcode, if_neg (not_lt.2 h)]

theorem readHeader_eq_error (h : o + W + widthOfCode (uint (sub x o (o + W))) > x.len) :
    readHeader x o W = .error ⟨.headerTruncated, o⟩ := by
  by_cases hcode : o + W > x.len
  · exact if_pos hcode
  · have hne : uint (sub x o (o + W)) ≠ 0 := fun hzero => by rw [hzero] at h; exact hcode h
    rw [readHeader, if_neg hcode]
    simp only [if_neg hne, if_pos h]

end

/-- A part of a concatenation is read back at its place. -/
theorem sub_concat_concat (x : BitString) {y : BitString} (hy : y.Canonical) (z : BitString) :
    sub (concat (concat x y) z) x.len (x.len + y.len) = y := by
  have hbits : ((x.bits ++ (y.bits ++ z.bits)).drop x.len).take (x.len + y.len - x.len) = y.bits := by
    rw [List.drop_left' (bits_length x), List.take_left' (by simp)]
  rw [sub, bits_concat, bits_concat, List.append_assoc, hbits, mk_bits hy]

/-- A header at its place is read back, the least one for its length or not (41_header_codec R95 (b)). -/
theorem readHeader_headerWith {sc L W : Nat} (pre post : BitString) (hsc : sc < 2 ^ W) (hL : L < 2 ^ widthOfCode sc) :
    readHeader (concat (concat pre (headerWith sc L W)) post) pre.len W =
      .ok (pre.len + (W + widthOfCode sc), pre.len + (W + widthOfCode sc) + L) := by
  have hcode : sub (concat (concat pre (headerWith sc L W)) post) pre.len (pre.len + W) = bitsOf sc W := by
    have := sub_concat_concat pre (bitsOf_canonical sc W) (concat (bitsOf L (widthOfCode sc)) post)
    rwa [bitsOf_len, concat_assoc, ← concat_assoc pre] at this
  have hfield : sub (concat (concat pre (headerWith sc L W)) post) (pre.len + W) (pre.len + W + widthOfCode sc) =
      bitsOf L (widthOfCode sc) := by
    have := sub_concat_concat (concat pre (bitsOf sc W)) (bitsOf_canonical L (widthOfCode sc)) post
    rwa [concat_len, bitsOf_len, bitsOf_len, ← concat_assoc pre] at this
  have hsize : uint (sub (concat (concat pre (headerWith sc L W)) post) pre.len (pre.len + W)) = sc := by
    rw [hcode, uint_bitsOf hsc]
  have hinside : pre.len + W + widthOfCode sc ≤ (concat (concat pre (headerWith sc L W)) post).len := by
    simp only [concat_len, headerWith_len]
    omega
  rw [readHeader_eq_ok (hsize.symm ▸ hinside), hsize, hfield, uint_bitsOf hL, Nat.add_assoc]

theorem readHeader_createHeader {length : Int} {W : Nat} {h : BitString} (pre post : BitString)
    (hcreate : createHeader length W = some h) :
    readHeader (concat (concat pre h) post) pre.len W =
      .ok (pre.len + (W + fieldWidth (numBits length.toNat)),
        pre.len + (W + fieldWidth (numBits length.toNat)) + length.toNat) := by
  obtain ⟨-, hsc, rfl⟩ := createHeader_eq_some_iff.1 hcreate
  rw [readHeader_headerWith pre post hsc (lt_two_pow_widthOfCode_leastCode _), widthOfCode_leastCode]

/-- Settles O41: `create_header` gives a header whose code fits `W` bits and whose length fits the field. -/
theorem headerRoundTrip : Obligations.HeaderRoundTrip := fun _ _ pre post _ _ _ => readHeader_createHeader pre post

/-- A BitString that reads as a header and nothing else is one, with the length it announces. -/
theorem eq_headerWith_of_readHeader {x : BitString} {W L : Nat} (hx : x.Canonical)
    (h : readHeader x 0 W = .ok (x.len, x.len + L)) : ∃ sc, L < 2 ^ widthOfCode sc ∧ x = headerWith sc L W := by
  by_cases hend : 0 + W + widthOfCode (uint (sub x 0 (0 + W))) > x.len
  · cases h.symm.trans (readHeader_eq_error hend)
  rw [readHeader_eq_ok (not_lt.1 hend), Nat.zero_add] at h
  simp only [Except.ok.injEq, Prod.mk.injEq] at h
  obtain ⟨hlen, hL⟩ := h
  rw [hlen] at hL
  have hcode : (sub x 0 W).len = W := sub_len (by omega)
  have hfield : (sub x W x.len).len = widthOfCode (uint (sub x 0 W)) := by rw [sub_len le_rfl]; omega
  have hcode' := bitsOf_uint (sub_canonical x 0 W)
  have hfield' := bitsOf_uint (sub_canonical x W x.len)
  have hL' : uint (sub x W x.len) = L := by omega
  rw [hcode] at hcode'
  rw [hL', hfield] at hfield'
  refine ⟨uint (sub x 0 W), ?_, ?_⟩
  · rw [← hL', ← hfield]
    exact uint_lt _
  · rw [headerWith, hcode', hfield', concat_sub_sub hx]

/-- A header that begins another one reads as both do there, so both announce the same length (41_header_codec R95 (d)). -/
theorem createHeader_length_inj {W : Nat} {length length' : Int} {h h' : BitString}
    (hcreate : createHeader length W = some h) (hcreate' : createHeader length' W = some h') (hbegins : h.bits <+: h'.bits) :
    length = length' := by
  obtain ⟨hlength, -, -⟩ := createHeader_eq_some_iff.1 hcreate
  obtain ⟨hlength', -, -⟩ := createHeader_eq_some_iff.1 hcreate'
  obtain ⟨rest, hrest⟩ := hbegins
  have hread := readHeader_createHeader BitString.empty (mk rest) hcreate
  have hread' := readHeader_createHeader BitString.empty BitString.empty hcreate'
  have hsame : concat (concat BitString.empty h) (mk rest) = concat (concat BitString.empty h') BitString.empty := by
    simp only [concat, bits_mk, bits_empty, List.nil_append, List.append_nil, hrest]
  rw [hsame, hread'] at hread
  simp only [Except.ok.injEq, Prod.mk.injEq] at hread
  omega

/-- Settles O42: two readings of one header agree, and field_width is the least width that holds the length. -/
theorem noHeaderBeginsAnother : Obligations.NoHeaderBeginsAnother := by
  refine ⟨fun W length length' h h' _ _ hcreate hcreate' hbegins => ?_, fun W length h x _ _ hcreate hx hread => ?_⟩
  · obtain rfl := createHeader_length_inj hcreate hcreate' hbegins
    exact ⟨rfl, Option.some_inj.1 (hcreate.symm.trans hcreate')⟩
  · obtain ⟨-, -, rfl⟩ := createHeader_eq_some_iff.1 hcreate
    obtain ⟨sc, hL, rfl⟩ := eq_headerWith_of_readHeader hx hread
    have hleast := fieldWidth_le_widthOfCode (numBits_le hL)
    simp only [headerWith_len, widthOfCode_leastCode]
    refine ⟨by omega, fun hlen => ?_⟩
    have hwidth : widthOfCode sc = fieldWidth (numBits length.toNat) := by omega
    rw [leastCode, ← hwidth, sizeCode_widthOfCode]

/-! ### The commands (41_header_codec R93, R96) -/

theorem widthLegal_of_ne_zero {w : BitVec 4} (h : w ≠ 0) : widthLegal w = true := bne_iff_ne.2 h

theorem holdsBits_headerWith (sc L W : Nat) :
    HoldsBits (headerWith sc L W) (W + widthOfCode sc) fun p =>
      if p < W then sc.testBit (W - 1 - p) else L.testBit (widthOfCode sc - 1 - (p - W)) := by
  have hparts := holdsBits_concat (bitsOf sc W) (bitsOf L (widthOfCode sc))
  simp only [bitsOf_len] at hparts
  refine hparts.congr fun p hp => ?_
  obtain ⟨-, -, hcode⟩ := holdsBits_bitsOf sc W
  obtain ⟨-, -, hfield⟩ := holdsBits_bitsOf L (widthOfCode sc)
  split
  · exact hcode p ‹_›
  · exact hfield (p - W) (by omega)

/-- Settles O43: the header of the length, written to one register. -/
theorem mkhdrCompletes : Obligations.MkhdrCompletes := by
  intro bd length w s hw hlength L fw hcode
  have hpos := Nat.two_pow_pos w.toNat
  have hsc : leastCode L < 2 ^ w.toNat := Nat.lt_of_le_pred hpos hcode
  have hcreate : createHeader (sext32 length) (widthOf w) = some (headerWith (leastCode L) L w.toNat) :=
    createHeader_eq_some_iff.2 ⟨hlength, hsc, rfl⟩
  have hbits := holdsBits_headerWith (leastCode L) L w.toNat
  rw [widthOfCode_leastCode] at hbits
  simp only [exec, execMkhdr, widthLegal_of_ne_zero hw, if_true, hcreate]
  exact complete_setReg_holdsBits s bd hbits

/-- Settles O44: `create_header` gives no header in either case. -/
theorem mkhdrEncodingError : Obligations.MkhdrEncodingError := by
  intro bd length w s hw hbad
  have hcreate : createHeader (sext32 length) (widthOf w) = none := createHeader_eq_none hbad
  simp only [exec, execMkhdr, widthLegal_of_ne_zero hw, if_true, hcreate]
  exact raise_failed .encodingError s (by decide)

/-- RDHDR of an offset inside the register, once the header is read, tests the end offset only (41_header_codec R96). -/
theorem exec_rdhdr_of_readHeader_ok {bs1 : BReg} {offset : Scalar} {w : BitVec 4} {s : State} {ps pe : Nat} (hw : w ≠ 0)
    (hinside : ¬ (sext32 offset < 0 ∨ sext32 offset > (s.reg bs1).len))
    (hread : readHeader (s.reg bs1) (sext32 offset).toNat w.toNat = .ok (ps, pe)) :
    exec (.rdhdr bs1 offset w) s =
      if pe > 2 ^ 32 - 1 then raise .payloadTruncated (sext32 offset).toNat s
      else complete [] ((s.setR0 (latch ps)).setR1 (latch pe)) := by
  simp only [exec, execRdhdr, widthOf, widthLegal_of_ne_zero hw, if_true, if_neg hinside, hread]

/-- Settles O45: the header is read, and both offsets fit their latches. -/
theorem rdhdrCompletes : Obligations.RdhdrCompletes := by
  intro bs1 offset w s hw hoffset x o fw start L hstart hend
  have hinside : ¬ (sext32 offset < 0 ∨ sext32 offset > x.len) := by omega
  have hread : readHeader x o w.toNat = .ok (start, start + L) := readHeader_eq_ok hstart
  have hstart32 : start < 2 ^ 32 := by omega
  have hend32 : start + L < 2 ^ 32 := by omega
  rw [exec_rdhdr_of_readHeader_ok hw hinside hread, if_neg (not_lt.2 hend)]
  exact ⟨_, complete_eq _ _, answer_completed _ rfl rfl, latch_toNat hstart32, latch_toNat hend32, rfl⟩

theorem sext32_toNat_lt (v : Scalar) : (sext32 v).toNat < 2 ^ 32 := by
  have hlt : sext32 v < 2 ^ 31 := BitVec.toInt_lt
  omega

/-- Settles O46: the tests of RDHDR stand in this order, and an offset fits EINFO. -/
theorem rdhdrFails : Obligations.RdhdrFails := by
  intro bs1 offset w s hw x o fw start L
  split
  · have houtside : sext32 offset < 0 ∨ sext32 offset > (s.reg bs1).len := ‹_›
    simp only [exec, execRdhdr, widthLegal_of_ne_zero hw, if_true, if_pos houtside]
    exact raise_failed .rangeError s (by decide)
  · have hinside : ¬ (sext32 offset < 0 ∨ sext32 offset > (s.reg bs1).len) := ‹_›
    split
    · have hread : readHeader (s.reg bs1) (sext32 offset).toNat (widthOf w) = .error ⟨.headerTruncated, o⟩ :=
        readHeader_eq_error ‹_›
      simp only [exec, execRdhdr, widthLegal_of_ne_zero hw, if_true, if_neg hinside, hread]
      exact raise_failed .headerTruncated s (sext32_toNat_lt offset)
    · intro hend
      rw [exec_rdhdr_of_readHeader_ok hw hinside (readHeader_eq_ok (not_lt.1 ‹_›)), if_pos hend]
      exact raise_failed .payloadTruncated s (sext32_toNat_lt offset)

end Sys2Proof.Machine

/-! The framing codec and its commands (42_framing): what one frame costs the encoders and the decoders, said once each; the
round trips, the cut encodings and the loop of `decode_list`; then ENCCH, ENCLS, DECCH and DECLS. -/

namespace Sys2Proof.Machine

/-- Mapping the value of an answer gives no error of its own. -/
theorem map_eq_error {α β : Type} {f : α → β} {r : Except Raise α} {e : Raise} (h : r.map f = .error e) :
    r = .error e := by
  cases r with
  | error e' => cases h; rfl
  | ok a => cases h

/-! ### The encoders, one frame at a time (42_framing R100, R101, R107) -/

theorem frame_eq_some_iff {c f : BitString} {W : Nat} :
    frame c W = some f ↔ ∃ h, createHeader c.len W = some h ∧ concat h c = f := by
  unfold frame
  split <;> simp_all

theorem frame_of_createHeader {c header : BitString} {W : Nat} (h : createHeader c.len W = some header) :
    frame c W = some (concat header c) := frame_eq_some_iff.2 ⟨header, h, rfl⟩

section
variable {W : Nat} {tail c f : BitString} {i : Nat} {cs : List BitString}

theorem framesThen_cons (h : frame c W = some f) :
    framesThen W tail i (c :: cs) = (framesThen W tail (i + 1) cs).map (concat f) := by
  simp only [framesThen, h]
  cases framesThen W tail (i + 1) cs <;> rfl

theorem framesThen_cons_ok {y : BitString} (h : framesThen W tail i (c :: cs) = .ok y) :
    ∃ f z, frame c W = some f ∧ framesThen W tail (i + 1) cs = .ok z ∧ concat f z = y := by
  simp only [framesThen] at h
  split at h
  · cases h
  · split at h
    · cases h
    · cases h
      exact ⟨_, _, ‹_›, ‹_›, rfl⟩

theorem framesThen_cons_error (h : createHeader c.len W = none) :
    framesThen W tail i (c :: cs) = .error ⟨.encodingError, i⟩ := by
  simp only [framesThen, frame, h]

end

/-- The chunks before one whose header cannot be made leave its error as it is. -/
theorem framesThen_append_error {W : Nat} {before : List BitString} {c : BitString}
    (hbefore : ∀ d ∈ before, createHeader d.len W ≠ none) (hc : createHeader c.len W = none) (tail : BitString) (i : Nat)
    (rest : List BitString) :
    framesThen W tail i (before ++ c :: rest) = .error ⟨.encodingError, i + before.length⟩ := by
  induction before generalizing i with
  | nil => exact framesThen_cons_error hc
  | cons d ds ih =>
    obtain ⟨hd, hds⟩ := List.forall_mem_cons.1 hbefore
    obtain ⟨header, hheader⟩ := Option.ne_none_iff_exists'.1 hd
    rw [List.cons_append, framesThen_cons (frame_of_createHeader hheader), ih hds, Except.map, List.length_cons,
      Nat.add_right_comm, Nat.add_assoc]

/-- The tail comes after the frames. -/
theorem framesThen_eq_map_concat {W : Nat} {tail : BitString} (htail : tail.Canonical) (i : Nat) (ch : List BitString) :
    framesThen W tail i ch = (framesThen W BitString.empty i ch).map (concat · tail) := by
  induction ch generalizing i with
  | nil => exact congrArg Except.ok (empty_concat htail).symm
  | cons c cs ih =>
    cases hheader : createHeader c.len W with
    | none => simp only [framesThen_cons_error hheader, Except.map]
    | some header =>
      rw [framesThen_cons (frame_of_createHeader hheader), framesThen_cons (frame_of_createHeader hheader), ih]
      cases framesThen W BitString.empty (i + 1) cs with
      | error e => rfl
      | ok y => exact congrArg Except.ok (concat_assoc _ y tail)

/-- An encoder fails only for a header that cannot be made, with the index of its chunk (60_exceptions R119). -/
theorem framesThen_error {W : Nat} {tail : BitString} {i : Nat} {ch : List BitString} {e : Raise}
    (h : framesThen W tail i ch = .error e) : e.kind = .encodingError ∧ e.info < i + ch.length := by
  induction ch generalizing i with
  | nil => cases h
  | cons c cs ih =>
    rw [List.length_cons]
    cases hheader : createHeader c.len W with
    | none =>
      rw [framesThen_cons_error hheader] at h
      cases h
      exact ⟨rfl, Nat.lt_add_of_pos_right (Nat.succ_pos _)⟩
    | some header =>
      rw [framesThen_cons (frame_of_createHeader hheader)] at h
      obtain ⟨hkind, hinfo⟩ := ih (map_eq_error h)
      exact ⟨hkind, by omega⟩

theorem encodeChunks_append_singleton (ch : List BitString) (last : BitString) (W : Nat) :
    encodeChunks (ch ++ [last]) W = framesThen W last 0 ch := by
  simp [encodeChunks]

/-- A chunk encoding is the list encoding of all chunks but the last, then the last (42_framing R101). -/
theorem encodeChunks_eq_map_concat {last : BitString} (hlast : last.Canonical) (ch : List BitString) (W : Nat) :
    encodeChunks (ch ++ [last]) W = (encodeList ch W).map (concat · last) := by
  rw [encodeChunks_append_singleton, framesThen_eq_map_concat hlast, encodeList]

theorem framesThen_of_headers {W : Nat} {ch hs : List BitString}
    (h : List.Forall₂ (fun c header => createHeader c.len W = some header) ch hs) (i : Nat) :
    framesThen W BitString.empty i ch =
      .ok (mk (List.zipWith (fun header c => header.bits ++ c.bits) hs ch).flatten) := by
  induction h generalizing i with
  | nil => rfl
  | cons hheader _ ih =>
    rw [framesThen_cons (frame_of_createHeader hheader), ih]
    simp [Except.map, concat]

/-- Settles O47: a frame is the header and then the chunk, and the last chunk of a chunk encoding comes after the list
encoding of the others. -/
theorem encodersGiveFramesInOrder : Obligations.EncodersGiveFramesInOrder := by
  intro W ch hs h
  have hlist : encodeList ch W = _ := framesThen_of_headers h 0
  refine ⟨hlist, rfl, fun last hlast => ?_⟩
  rw [encodeChunks_eq_map_concat hlast, hlist]
  simp [Except.map, concat]

/-- Settles O48: the chunks before the bad one leave its index, and its error, as they are. -/
theorem encodersFailAtTheFirstBadChunk : Obligations.EncodersFailAtTheFirstBadChunk := by
  intro W before after c hbefore hc
  have hfail (tail : BitString) (rest : List BitString) :
      framesThen W tail 0 (before ++ c :: rest) = .error ⟨.encodingError, before.length⟩ := by
    rw [framesThen_append_error hbefore hc, Nat.zero_add]
  refine ⟨hfail _ _, fun hafter => ?_⟩
  obtain ⟨headed, last, rfl⟩ := (List.eq_nil_or_concat' after).resolve_left hafter
  rw [← List.cons_append, ← List.append_assoc, encodeChunks_append_singleton]
  exact hfail _ _

/-! ### The decoders, one frame at a time (42_framing R105, R109) -/

/-- A frame at its place is read back; its chunk comes in canonical form. -/
theorem readFrame_frame {c f : BitString} {W : Nat} (pre post : BitString) (h : frame c W = some f) :
    readFrame (concat (concat pre f) post) pre.len W = .ok (mk c.bits, pre.len + f.len) := by
  obtain ⟨header, hheader, rfl⟩ := frame_eq_some_iff.1 h
  have hbuffer : concat (concat pre (concat header c)) post = concat (concat (concat pre header) (mk c.bits)) post := by
    simp [concat]
  have hread := readHeader_createHeader pre (concat (mk c.bits) post) hheader
  rw [← createHeader_len hheader, concat_assoc, Int.toNat_natCast] at hread
  have hpayload := sub_concat_concat (concat pre header) (mk_canonical c.bits) post
  simp only [concat_len, mk_len, bits_length] at hpayload
  have hend : ¬ pre.len + header.len + c.len > (concat (concat (concat pre header) (mk c.bits)) post).len := by
    simp only [concat_len, mk_len, bits_length]
    omega
  rw [hbuffer, concat_len, ← Nat.add_assoc]
  simp only [readFrame, hread, hpayload, if_neg hend]

section
variable {x : BitString} {W k cur next : Nat} {c : BitString} {e : Raise}

theorem chunksFrom_succ (h : readFrame x cur W = .ok (c, next)) :
    chunksFrom x W (k + 1) cur = (chunksFrom x W k next).map (c :: ·) := by
  simp only [chunksFrom, h]
  cases chunksFrom x W k next <;> rfl

theorem chunksFrom_succ_error (h : readFrame x cur W = .error e) : chunksFrom x W (k + 1) cur = .error e := by
  simp only [chunksFrom, h]

theorem framesFrom_len : framesFrom x W k x.len = .ok [] := by
  unfold framesFrom
  exact if_pos rfl

theorem framesFrom_succ (hcur : cur ≠ x.len) (h : readFrame x cur W = .ok (c, next)) :
    framesFrom x W (k + 1) cur = (framesFrom x W k next).map (c :: ·) := by
  rw [framesFrom, if_neg hcur]
  simp only [h]
  cases framesFrom x W k next <;> rfl

theorem framesFrom_succ_error (hcur : cur ≠ x.len) (h : readFrame x cur W = .error e) :
    framesFrom x W (k + 1) cur = .error e := by
  rw [framesFrom, if_neg hcur]
  simp only [h]

/-- One frame moves the cursor on by at least `W`, inside the buffer (42_framing R111). -/
theorem readFrame_next (h : readFrame x cur W = .ok (c, next)) : cur + W ≤ next ∧ next ≤ x.len := by
  obtain h' | h' | ⟨ps, next', h', hstart, hend, hlen⟩ := readFrame_cases x cur W <;> cases h.symm.trans h'
  exact ⟨by omega, hlen⟩

theorem readFrame_error (h : readFrame x cur W = .error e) :
    (e.kind = .headerTruncated ∨ e.kind = .payloadTruncated) ∧ e.info = cur := by
  obtain h' | h' | ⟨ps, next', h', -⟩ := readFrame_cases x cur W <;> cases h.symm.trans h'
  · exact ⟨.inl rfl, rfl⟩
  · exact ⟨.inr rfl, rfl⟩

end

/-- More passes than there are bits left change nothing (42_framing R111). -/
theorem framesFrom_enough {x : BitString} {W : Nat} (hW : 1 ≤ W) {k m cur : Nat} (hcur : cur ≤ x.len)
    (hk : x.len - cur ≤ k) (hm : x.len - cur ≤ m) : framesFrom x W k cur = framesFrom x W m cur := by
  induction k generalizing m cur with
  | zero =>
    obtain rfl : cur = x.len := by omega
    rw [framesFrom_len, framesFrom_len]
  | succ k ih =>
    by_cases hend : cur = x.len
    · rw [hend, framesFrom_len, framesFrom_len]
    obtain ⟨m, rfl⟩ : ∃ m', m = m' + 1 := ⟨m - 1, by omega⟩
    cases hread : readFrame x cur W with
    | error e => rw [framesFrom_succ_error hend hread, framesFrom_succ_error hend hread]
    | ok frame =>
      obtain ⟨c, next⟩ := frame
      obtain ⟨hmove, hinside⟩ := readFrame_next hread
      rw [framesFrom_succ hend hread, framesFrom_succ hend hread, ih (m := m) hinside (by omega) (by omega)]

/-- Settles O49: a pass leaves enough passes for the bits after its frame. -/
theorem decodeListMeetsItsLoop : Obligations.DecodeListMeetsItsLoop := by
  intro x W fuel cur hW hcur hfuel
  split
  · rename_i hend
    rw [hend, framesFrom_len]
  · rename_i hend
    obtain ⟨fuel, rfl⟩ : ∃ k, fuel = k + 1 := ⟨fuel - 1, by omega⟩
    split
    · exact framesFrom_succ_error hend ‹_›
    · rename_i c next hread
      obtain ⟨hmove, hinside⟩ := readFrame_next hread
      rw [framesFrom_succ hend hread, framesFrom_enough hW (m := x.len - next) hinside (by omega) le_rfl]
      cases framesFrom x W (x.len - next) next <;> rfl

/-! ### A run of frames is read back (42_framing R112) -/

/-- The loop `decoder`, given its passes and its cursor, takes one frame of `x` a pass. -/
def TakesFrames (x : BitString) (W : Nat) (decoder : Nat → Nat → Except Raise (List BitString)) : Prop :=
  ∀ k cur c next, readFrame x cur W = .ok (c, next) → decoder (k + 1) cur = (decoder k next).map (c :: ·)

theorem takesFrames_chunksFrom (x : BitString) (W : Nat) : TakesFrames x W (chunksFrom x W) :=
  fun _ _ _ _ => chunksFrom_succ

theorem takesFrames_framesFrom (x : BitString) {W : Nat} (hW : 1 ≤ W) : TakesFrames x W (framesFrom x W) := by
  intro k cur c next h
  obtain ⟨hmove, hinside⟩ := readFrame_next h
  exact framesFrom_succ (by omega) h

/-- Either loop reads a list encoding at its place back, and goes on after it. -/
theorem TakesFrames.read_framesThen {x : BitString} {W : Nat} {decoder : Nat → Nat → Except Raise (List BitString)}
    (hx : TakesFrames x W decoder) {ch : List BitString} {i : Nat} {pre p post : BitString}
    (hp : framesThen W BitString.empty i ch = .ok p) (hplace : x = concat (concat pre p) post) (k : Nat) :
    decoder (ch.length + k) pre.len = (decoder k (pre.len + p.len)).map ((ch.map fun c => mk c.bits) ++ ·) := by
  induction ch generalizing i pre p with
  | nil =>
    cases hp
    rw [List.length_nil, Nat.zero_add]
    exact (congrFun Except.map_id (decoder k pre.len)).symm
  | cons c cs ih =>
    obtain ⟨f, z, hf, hz, rfl⟩ := framesThen_cons_ok hp
    have hfirst : x = concat (concat pre f) (concat z post) := by rw [hplace]; simp only [concat_assoc]
    have hrest : x = concat (concat (concat pre f) z) post := by rw [hplace]; simp only [concat_assoc]
    have hread := readFrame_frame pre (concat z post) hf
    rw [← hfirst] at hread
    have hih := ih hz hrest
    rw [concat_len] at hih
    rw [List.length_cons, Nat.add_right_comm, hx _ _ _ _ hread, hih, concat_len, Nat.add_assoc]
    cases decoder k (pre.len + (f.len + z.len)) <;> rfl

/-- Canonical chunks are read back as they are. -/
theorem map_mk_bits {ch : List BitString} (h : ∀ c ∈ ch, c.Canonical) : (ch.map fun c => mk c.bits) = ch :=
  (List.map_congr_left (g := id) fun c hc => mk_bits (h c hc)).trans (List.map_id ch)

/-- Either loop reads a list encoding at the beginning of its buffer back, and goes on after it. -/
theorem TakesFrames.read_encodeList {x : BitString} {W : Nat} {decoder : Nat → Nat → Except Raise (List BitString)}
    (hx : TakesFrames x W decoder) {ch : List BitString} {p post : BitString} (hp : encodeList ch W = .ok p)
    (hplace : x = concat p post) (k : Nat) :
    decoder (ch.length + k) 0 = (decoder k p.len).map ((ch.map fun c => mk c.bits) ++ ·) := by
  have hbuffer : x = concat (concat BitString.empty p) post := by rw [empty_concat (encodeList_canonical hp), hplace]
  have h := hx.read_framesThen hp hbuffer k
  rwa [show BitString.empty.len = 0 from rfl, Nat.zero_add] at h

/-- Settles O50: the loop takes the headed chunks, and the bits after them are the last chunk. -/
theorem chunkRoundTrip : Obligations.ChunkRoundTrip := by
  intro W ch y _ _ hch h
  obtain rfl | ⟨headed, last, rfl⟩ := List.eq_nil_or_concat' ch
  · cases h
    rfl
  have hlast : last.Canonical := hch last (by simp)
  rw [encodeChunks_eq_map_concat hlast] at h
  cases hp : encodeList headed W with
  | error e => rw [hp] at h; cases h
  | ok p =>
    rw [hp] at h
    cases h
    have hheaded := (takesFrames_chunksFrom (concat p last) W).read_encodeList hp rfl 0
    rw [map_mk_bits fun c hc => hch c (by simp [hc])] at hheaded
    rw [List.length_append]
    refine hheaded.trans ?_
    simp only [chunksFrom, concat_len, sub_concat_right p hlast, Except.map]

/-- Settles O51: the loop takes every chunk and stops at the end; the passes it is given are enough. -/
theorem listRoundTrip : Obligations.ListRoundTrip := by
  intro W ch y hW _ hch h
  have hplace : y = concat y BitString.empty := by
    rw [concat, bits_empty, List.append_nil, mk_bits (encodeList_canonical h)]
  have hread := (takesFrames_framesFrom y hW).read_encodeList h hplace y.len
  rw [framesFrom_len, map_mk_bits hch] at hread
  rw [decodeList, framesFrom_enough hW (m := ch.length + y.len) (Nat.zero_le _) (by omega) (by omega), hread]
  simp [Except.map]

/-! ### A cut chunk encoding (42_framing R105, R113) -/

theorem sub_concat_of_le {x : BitString} {e : Nat} (s : Nat) (z : BitString) (h : e ≤ x.len) :
    sub (concat x z) s e = sub x s e := by
  rw [← bits_length] at h
  rw [sub, sub, bits_concat, ← List.drop_take, ← List.drop_take, List.take_append_of_le_length h]

/-- What follows a header does not change how it is read. -/
theorem readHeader_concat {x : BitString} {o W ps pe : Nat} (z : BitString) (h : readHeader x o W = .ok (ps, pe)) :
    readHeader (concat x z) o W = .ok (ps, pe) := by
  by_cases hend : o + W + widthOfCode (uint (sub x o (o + W))) > x.len
  · cases h.symm.trans (readHeader_eq_error hend)
  have hcode : sub (concat x z) o (o + W) = sub x o (o + W) := sub_concat_of_le o z (by omega)
  rw [readHeader_eq_ok (by rw [hcode, concat_len]; omega), hcode, sub_concat_of_le _ z (not_lt.1 hend), ← h,
    readHeader_eq_ok (not_lt.1 hend)]

/-- What follows a frame does not change how it is read. -/
theorem readFrame_concat {x c : BitString} {cur W next : Nat} (z : BitString) (h : readFrame x cur W = .ok (c, next)) :
    readFrame (concat x z) cur W = .ok (c, next) := by
  unfold readFrame at h
  split at h
  · cases h
  · rename_i ps pe hread
    split at h
    · cases h
    · cases h
      simp only [readFrame, readHeader_concat z hread, concat_len, sub_concat_of_le _ z (not_lt.1 ‹_›)]
      exact if_neg (by omega)

/-- A buffer that ends before the end of a frame does not hold that frame. -/
theorem readFrame_cut {c f pre x rest : BitString} {W : Nat} (post : BitString) (hf : frame c W = some f)
    (hx : concat x rest = concat (concat pre f) post) (hcut : x.len < pre.len + f.len) :
    ∃ k ∈ [ErrorKind.headerTruncated, ErrorKind.payloadTruncated], readFrame x pre.len W = .error ⟨k, pre.len⟩ := by
  obtain h | h | ⟨ps, next, h, -, -, hinside⟩ := readFrame_cases x pre.len W
  · exact ⟨_, by simp, h⟩
  · exact ⟨_, by simp, h⟩
  · have hwhole := readFrame_concat rest h
    rw [hx, readFrame_frame pre post hf] at hwhole
    simp only [Except.ok.injEq, Prod.mk.injEq] at hwhole
    omega

/-- The frame of a chunk stands after the frames of the chunks before it. -/
theorem framesThen_append_cons_ok {W i : Nat} {tail c f p y : BitString} {before rest : List BitString}
    (hy : framesThen W tail i (before ++ c :: rest) = .ok y) (hp : framesThen W BitString.empty i before = .ok p)
    (hf : frame c W = some f) : ∃ z, y = concat (concat p f) z := by
  induction before generalizing i p y with
  | nil =>
    obtain ⟨f', z, hf', -, rfl⟩ := framesThen_cons_ok hy
    cases hp
    cases hf.symm.trans hf'
    exact ⟨z, by simp [concat]⟩
  | cons d ds ih =>
    obtain ⟨g, q, hg, hq, rfl⟩ := framesThen_cons_ok hp
    obtain ⟨g', y', hg', hy', rfl⟩ := framesThen_cons_ok hy
    cases hg.symm.trans hg'
    obtain ⟨z, rfl⟩ := ih hy' hq
    exact ⟨z, by simp only [concat_assoc]⟩

/-- The beginning of a BitString that begins with `p` begins with `p` too, from the end of `p` on. -/
theorem sub_concat_eq_concat {p z : BitString} {n : Nat} (hp : p.Canonical) (h : p.len ≤ n) :
    ∃ g, sub (concat p z) 0 n = concat p g := by
  have hbegin : sub (sub (concat p z) 0 n) 0 p.len = p := by
    rw [sub_of_sub _ _ h, Nat.zero_add, Nat.zero_add, sub_concat_left hp]
  have hjoin := concat_sub_sub (sub_canonical (concat p z) 0 n) p.len
  rw [hbegin] at hjoin
  exact ⟨_, hjoin.symm⟩

/-- Settles O52: the frames before the cut one are taken, and what is left does not hold its frame. -/
theorem cutChunkEncodingFails : Obligations.CutChunkEncodingFails := by
  intro W n before after c y p f _ _ hafter hy hp hf hfrom hto
  obtain ⟨headed, last, rfl⟩ := (List.eq_nil_or_concat' after).resolve_left hafter
  rw [← List.cons_append, ← List.append_assoc, encodeChunks_append_singleton] at hy
  obtain ⟨z, rfl⟩ := framesThen_append_cons_ok hy hp hf
  have hlen : (sub (concat (concat p f) z) 0 n).len = n := sub_len (by simp only [concat_len]; omega)
  obtain ⟨k, hk, hread⟩ := readFrame_cut z hf (concat_sub_sub (concat_canonical (concat p f) z) n) (hlen.trans_lt hto)
  obtain ⟨g, hg⟩ := sub_concat_eq_concat (z := concat f z) (encodeList_canonical hp) hfrom
  rw [concat_assoc] at hg
  have htaken := (takesFrames_chunksFrom _ W).read_encodeList hp hg (headed.length + 1)
  rw [chunksFrom_succ_error hread] at htaken
  have hlength : (before ++ c :: (headed ++ [last])).length = before.length + (headed.length + 1) + 1 := by simp; omega
  rw [hlength]
  exact ⟨k, hk, htaken⟩

/-! ### ENCCH and ENCLS (42_framing R102, R108) -/

/-- The two conditions of 30_encoding R58 on a command with a register range. -/
theorem rangeCommand_legal {w : BitVec 4} {base : BReg} {cnt : BitVec 8} (hw : w ≠ 0) (h : base.val + cnt.toNat ≤ 16) :
    (widthLegal w && rangeLegal base cnt) = true := by
  rw [widthLegal_of_ne_zero hw]
  exact decide_eq_true h

/-- How ENCCH and ENCLS end, given what their encoder answers. -/
def encodeEnd (bd : BReg) (r : Except Raise BitString) (s : State) : Answer :=
  match r with
  | .error e => raise e.kind e.info s
  | .ok y => writeWithin Config.maxBits bd y s

section
variable {bs1 : BReg} {cnt : BitVec 8} {w : BitVec 4} (hw : w ≠ 0) (hrange : bs1.val + cnt.toNat ≤ 16) (bd : BReg)
  (s : State)
include hw hrange

theorem exec_encch : exec (.encch bd bs1 cnt w) s = encodeEnd bd (encodeChunks (s.range bs1 cnt.toNat) w.toNat) s :=
  if_pos (rangeCommand_legal hw hrange)

theorem exec_encls : exec (.encls bd bs1 cnt w) s = encodeEnd bd (encodeList (s.range bs1 cnt.toNat) w.toNat) s :=
  if_pos (rangeCommand_legal hw hrange)

end

/-- The end of ENCCH and ENCLS when the result fits. -/
theorem encodeEnd_ok (bd : BReg) (s : State) {y : BitString} (h : y.len ≤ Config.maxBits) :
    ∃ t, encodeEnd bd (.ok y) s = .next t ∧ Completed s t [] ∧ t.reg bd = y ∧ SameRegsBut bd s t ∧ SameLatches s t := by
  have hend : encodeEnd bd (.ok y) s = complete [] (s.setReg bd y) := if_neg (not_lt.2 h)
  rw [hend]
  exact complete_setReg s bd y

/-- The end of ENCCH and ENCLS when the result does not fit. -/
theorem encodeEnd_overflow (bd : BReg) (s : State) {y : BitString} (h : y.len > Config.maxBits) :
    ∃ t, encodeEnd bd (.ok y) s = .next t ∧ Failed s t .capacityError 0 := by
  have hend : encodeEnd bd (.ok y) s = raise .capacityError 0 s := if_pos h
  rw [hend]
  exact raise_failed .capacityError s (by decide)

/-- The end of ENCCH and ENCLS when the header of a chunk cannot be made: EINFO is its index, below 256. -/
theorem encodeEnd_error (bd : BReg) (s : State) {e : Raise} {cnt : BitVec 8} (hkind : e.kind = .encodingError)
    (hinfo : e.info < cnt.toNat) : ∃ t, encodeEnd bd (.error e) s = .next t ∧ Failed s t .encodingError e.info := by
  have hcnt := cnt.isLt
  rw [← hkind]
  exact raise_failed e.kind s (by omega)

/-- Element `i` of a source range is register `base + i`. -/
theorem State.range_getElem? {s : State} {base q : BReg} {cnt i : Nat} (hrange : base.val + cnt ≤ 16)
    (hq : q.val = base.val + i) (hi : i < cnt) : (s.range base cnt)[i]? = some (s.reg q) := by
  have hi' : i < (s.range base cnt).length := by rwa [s.range_length base cnt hrange]
  rw [List.getElem?_eq_getElem hi', s.range_getElem base cnt i hi' q hq]

/-- Settles O53: the sources are the registers of the range, and the result that fits is written to one register. -/
theorem encchCompletes : Obligations.EncchCompletes := by
  intro bd bs1 cnt w s y hw hrange hy hfits
  rw [exec_encch hw hrange, hy]
  exact ⟨s.range_length _ _ hrange, fun _ _ => State.range_getElem? hrange, encodeEnd_ok bd s hfits⟩

/-- Settles O54: ENCLS ends as ENCCH does, with the list encoding. -/
theorem enclsCompletes : Obligations.EnclsCompletes := by
  intro bd bs1 cnt w s y hw hrange hy hfits
  rw [exec_encls hw hrange, hy]
  exact ⟨s.range_length _ _ hrange, fun _ _ => State.range_getElem? hrange, encodeEnd_ok bd s hfits⟩

theorem encodeList_error {ch : List BitString} {W : Nat} {e : Raise} (h : encodeList ch W = .error e) :
    e.kind = .encodingError ∧ e.info < ch.length := by
  simpa using framesThen_error h

theorem encodeChunks_error {ch : List BitString} {W : Nat} {e : Raise} (h : encodeChunks ch W = .error e) :
    e.kind = .encodingError ∧ e.info < ch.length := by
  obtain rfl | ⟨headed, last, rfl⟩ := List.eq_nil_or_concat' ch
  · cases h
  · rw [encodeChunks_append_singleton] at h
    obtain ⟨hkind, hinfo⟩ := framesThen_error h
    rw [List.length_append]
    exact ⟨hkind, by omega⟩

/-- Settles O55: the index of a chunk is below the number of sources, and the capacity is tested on the finished result. -/
theorem encodeCommandsFail : Obligations.EncodeCommandsFail := by
  intro bd bs1 cnt w s hw hrange
  have hlength := s.range_length bs1 cnt.toNat hrange
  rw [exec_encch hw hrange, exec_encls hw hrange]
  refine ⟨fun e he => ?_, fun y hy hover => hy ▸ encodeEnd_overflow bd s hover, fun e he => ?_,
    fun y hy hover => hy ▸ encodeEnd_overflow bd s hover⟩
  · obtain ⟨hkind, hinfo⟩ := encodeChunks_error he
    rw [hlength] at hinfo
    exact ⟨hkind, hinfo, he ▸ encodeEnd_error bd s hkind hinfo⟩
  · obtain ⟨hkind, hinfo⟩ := encodeList_error he
    rw [hlength] at hinfo
    exact ⟨hkind, hinfo, he ▸ encodeEnd_error bd s hkind hinfo⟩

/-! ### DECCH and DECLS (42_framing R106, R110) -/

section
variable {bd bs1 : BReg} {cnt : BitVec 8} {w : BitVec 4} {s : State} {out : List BitString} {e : Raise} (hw : w ≠ 0)
include hw

theorem exec_decch_ok (hrange : bd.val + cnt.toNat ≤ 16) (h : decodeChunks (s.reg bs1) cnt.toNat w.toNat = .ok out) :
    exec (.decch bd bs1 cnt w) s = complete [] (s.setRange bd out) := by
  simp only [exec, execDecch, rangeCommand_legal hw hrange, if_true, countOf, widthOf, h]

theorem exec_decch_error (hrange : bd.val + cnt.toNat ≤ 16)
    (h : decodeChunks (s.reg bs1) cnt.toNat w.toNat = .error e) :
    exec (.decch bd bs1 cnt w) s = raise e.kind e.info s := by
  simp only [exec, execDecch, rangeCommand_legal hw hrange, if_true, countOf, widthOf, h]

theorem exec_decls_ok (h : decodeList (s.reg bs1) w.toNat = .ok out) :
    exec (.decls bd bs1 w) s =
      if bd.val + out.length > 16 then raise .capacityError 0 s
      else complete [] ((s.setRange bd out).setR0 (latch out.length)) := by
  simp only [exec, execDecls, widthLegal_of_ne_zero hw, if_true, widthOf, h]

theorem exec_decls_error (h : decodeList (s.reg bs1) w.toNat = .error e) :
    exec (.decls bd bs1 w) s = raise e.kind e.info s := by
  simp only [exec, execDecls, widthLegal_of_ne_zero hw, if_true, widthOf, h]

end

/-- Settles O56: as many chunks as asked for, written to the range of the destinations. -/
theorem decchCompletes : Obligations.DecchCompletes := by
  intro bd bs1 cnt w s out hw hrange h
  have hlength := decodeChunks_length h
  rw [exec_decch_ok hw hrange h]
  refine ⟨hlength, _, complete_eq _ _, answer_completed _ (by simp) (by simp), by simp [SameLatches],
    fun r i hr hi => ?_, fun r hr => ?_⟩
  · rw [State.reg_answer, s.reg_setRange_mem bd r out i hi hr]
  · rw [State.reg_answer, s.reg_setRange_not_mem bd r out (hlength ▸ hr)]

/-- Settles O57: the chunks are written to the range of registers that they fill, which exists. -/
theorem declsCompletes : Obligations.DeclsCompletes := by
  intro bd bs1 w s out hw h hfits
  rw [exec_decls_ok hw h, if_neg (not_lt.2 hfits)]
  have hcount : (latch out.length).toNat = out.length := latch_toNat (by omega)
  refine ⟨_, complete_eq _ _, answer_completed _ (by simp) (by simp), by simp [hcount], by simp,
    fun r i hr hi => ?_, fun r hr => ?_⟩
  · rw [State.reg_answer, State.reg_setR0, s.reg_setRange_mem bd r out i hi hr]
  · rw [State.reg_answer, State.reg_setR0, s.reg_setRange_not_mem bd r out hr]

/-- The loop of `decode_chunks` fails with a cursor inside its source (60_exceptions R120). -/
theorem chunksFrom_error {x : BitString} {W k cur : Nat} {e : Raise} (hcur : cur ≤ x.len)
    (h : chunksFrom x W k cur = .error e) :
    (e.kind = .headerTruncated ∨ e.kind = .payloadTruncated) ∧ e.info ≤ x.len := by
  induction k generalizing cur with
  | zero => cases h
  | succ k ih =>
    cases hread : readFrame x cur W with
    | error e' =>
      rw [chunksFrom_succ_error hread] at h
      cases h
      obtain ⟨hkind, hinfo⟩ := readFrame_error hread
      exact ⟨hkind, hinfo.trans_le hcur⟩
    | ok frame =>
      rw [chunksFrom_succ hread] at h
      exact ih (readFrame_next hread).2 (map_eq_error h)

/-- The loop of `decode_list` fails with a cursor before the end of its source (60_exceptions R120). -/
theorem framesFrom_error {x : BitString} {W k cur : Nat} {e : Raise} (hcur : cur ≤ x.len)
    (h : framesFrom x W k cur = .error e) :
    (e.kind = .headerTruncated ∨ e.kind = .payloadTruncated) ∧ e.info < x.len := by
  induction k generalizing cur with
  | zero =>
    unfold framesFrom at h
    split at h
    · cases h
    · cases h
      exact ⟨.inl rfl, lt_of_le_of_ne hcur ‹_›⟩
  | succ k ih =>
    by_cases hend : cur = x.len
    · rw [hend, framesFrom_len] at h
      cases h
    cases hread : readFrame x cur W with
    | error e' =>
      rw [framesFrom_succ_error hend hread] at h
      cases h
      obtain ⟨hkind, hinfo⟩ := readFrame_error hread
      exact ⟨hkind, by omega⟩
    | ok frame =>
      rw [framesFrom_succ hend hread] at h
      exact ih (readFrame_next hread).2 (map_eq_error h)

/-- What `decode_chunks` can fail with: TrailingGarbage for no chunks at all, and otherwise what its loop fails with. -/
theorem decodeChunks_error {x : BitString} {count W : Nat} {e : Raise} (h : decodeChunks x count W = .error e) :
    (count = 0 ∧ e = ⟨.trailingGarbage, 0⟩ ∧ x.len ≠ 0) ∨
      (count ≠ 0 ∧ (e.kind = .headerTruncated ∨ e.kind = .payloadTruncated) ∧ e.info ≤ x.len) := by
  cases count with
  | zero =>
    simp only [decodeChunks] at h
    split at h <;> cases h
    exact .inl ⟨rfl, rfl, ‹_›⟩
  | succ k => exact .inr ⟨k.succ_ne_zero, chunksFrom_error (Nat.zero_le _) h⟩

/-- Settles O58: a cursor inside a register fits EINFO, and DECLS tests its range of registers on the whole list. -/
theorem decodeCommandsFail : Obligations.DecodeCommandsFail := by
  intro bd bs1 cnt w s hs hw
  have hlen : (s.reg bs1).len < 2 ^ 32 := lt_of_le_maxBits (hs bs1).2
  refine ⟨fun hrange e he => ?_, fun e he => ?_, fun out hout hover => ?_⟩
  · rw [exec_decch_error hw hrange he]
    obtain ⟨hcnt, rfl, hne⟩ | ⟨hcnt, hkind, hinfo⟩ := decodeChunks_error he
    · rw [if_pos (BitVec.eq_of_toNat_eq hcnt)]
      exact ⟨⟨rfl, hne⟩, raise_failed _ s (by decide)⟩
    · rw [if_neg fun hzero => hcnt (congrArg BitVec.toNat hzero)]
      exact ⟨⟨hkind, hinfo⟩, raise_failed _ s (by omega)⟩
  · obtain ⟨hkind, hinfo⟩ := framesFrom_error (Nat.zero_le _) he
    rw [exec_decls_error hw he]
    exact ⟨hkind, hinfo, raise_failed _ s (by omega)⟩
  · rw [exec_decls_ok hw hout, if_pos hover]
    exact raise_failed .capacityError s (by decide)

end Sys2Proof.Machine

/-! The errors (60_exceptions): which errors each command raises and what EINFO holds beside them, said once for all twelve
commands; from it the rows of R126 and the relation of R123; and what a failing command leaves unchanged (R124). -/

namespace Sys2Proof.Machine

/-! ### What a failing command leaves unchanged (60_exceptions R124) -/

/-- Of the two ends of a command only raising leaves an error in STATUS, and it writes STATUS and EINFO and nothing else. -/
theorem EndsWell.eq_of_failed {s t : State} (h : EndsWell s (.next t)) (hfail : t.status ≠ .ok) :
    t = { s with status := t.status, einfo := t.einfo, inputs := s.inputs.tail, dout := some [] } := by
  obtain ⟨k, info, h⟩ | ⟨u, out, h, -⟩ := h
  · rw [raise_inv h.symm]
    rfl
  · rw [complete_inv h.symm] at hfail
    exact absurd rfl hfail

/-- Settles O19: a command and a step on any word end by raising or by completing. -/
theorem failingCommandChangesNothingElse : Obligations.FailingCommandChangesNothingElse := by
  refine ⟨fun i s t h => (h ▸ exec_endsWell i s).eq_of_failed, fun s t request later hmove hreset h hfail => ?_⟩
  have hend := (h ▸ step_command_endsWell hmove hreset).eq_of_failed hfail
  rwa [hmove] at hend

/-! ### What EINFO may hold (60_exceptions R123) -/

/-- The largest EINFO beside an error: the index of the last of sixteen chunks, the end of the longest BitString, or 0
(60_exceptions R123). -/
def ErrorKind.einfoMax : ErrorKind → Nat
  | .encodingError => 15
  | .headerTruncated | .payloadTruncated => Config.maxBits
  | .rangeError | .trailingGarbage | .capacityError | .illegalCommand => 0

theorem State.einfoRule_iff_of_error {s : State} {k : ErrorKind} (h : s.status = .error k) :
    s.EinfoRule ↔ s.einfo.toNat ≤ k.einfoMax := by
  have hzero : s.einfo = 0 ↔ s.einfo.toNat ≤ 0 := by rw [BitVec.toNat_eq]; exact Nat.le_zero.symm
  unfold State.EinfoRule
  rw [h]
  cases k with
  | encodingError => exact Nat.lt_succ_iff
  | headerTruncated | payloadTruncated => exact Iff.rfl
  | rangeError | trailingGarbage | capacityError | illegalCommand => exact hzero

theorem State.einfoRule_answer_ok (s : State) (out : List Byte) : (s.answer .ok 0 out).EinfoRule := rfl

theorem State.einfoRule_answer_error (s : State) {k : ErrorKind} {info : Nat} (h : info ≤ k.einfoMax) (out : List Byte) :
    (s.answer (.error k) (latch info) out).EinfoRule := by
  refine (State.einfoRule_iff_of_error (s.status_answer _ _ _)).2 (le_trans ?_ h)
  exact Nat.mod_le info (2 ^ 32)

/-! ### What each command raises (60_exceptions R126)

`RaisesAsListed` says of an answer which errors it may be and how large their EINFO is. The step invariant and the rows of R126
both follow from the one case split over the commands in `exec_raisesAsListed`. -/

/-- The answer completes, or raises an error that a legal `i` has in its row of R126, with an EINFO of R123. -/
inductive RaisesAsListed (i : Instr) (s : State) : Answer → Prop
  | raised (k : ErrorKind) (info : Nat) (hrow : i.wellFormed = true → k ∈ mayRaise i) (hinfo : s.Inv → info ≤ k.einfoMax) :
      RaisesAsListed i s (raise k info s)
  | completed (out : List Byte) (u : State) : RaisesAsListed i s (complete out u)

section
variable {i : Instr} {s : State}

/-- A command that is not legal raises IllegalCommand (30_encoding R58). -/
theorem raisesAsListed_illegal (h : ¬ i.wellFormed = true) : RaisesAsListed i s (illegal s) :=
  .raised .illegalCommand 0 (absurd · h) fun _ => Nat.le_refl 0

/-- An error whose EINFO is 0, in the row of the command. -/
theorem raisesAsListed_zero {k : ErrorKind} (h : k ∈ mayRaise i) : RaisesAsListed i s (raise k 0 s) :=
  .raised k 0 (fun _ => h) fun _ => Nat.zero_le _

/-- A header or a payload that is cut off: EINFO is an offset inside a register (60_exceptions R120). -/
theorem raisesAsListed_truncated {r : BReg} {k : ErrorKind} {info : Nat} (hk : k = .headerTruncated ∨ k = .payloadTruncated)
    (hrow : ErrorKind.headerTruncated ∈ mayRaise i ∧ ErrorKind.payloadTruncated ∈ mayRaise i)
    (hinfo : info ≤ (s.reg r).len) : RaisesAsListed i s (raise k info s) := by
  obtain rfl | rfl := hk
  · exact .raised _ info (fun _ => hrow.1) fun hs => hinfo.trans (hs r).2
  · exact .raised _ info (fun _ => hrow.2) fun hs => hinfo.trans (hs r).2

/-- The capacity test raises CapacityError only. -/
theorem raisesAsListed_writeWithin (h : ErrorKind.capacityError ∈ mayRaise i) (cap : Nat) (bd : BReg) (y : BitString) :
    RaisesAsListed i s (writeWithin cap bd y s) := by
  obtain ⟨-, hend⟩ | ⟨-, hend⟩ := writeWithin_cases cap bd y s <;> rw [hend]
  · exact raisesAsListed_zero h
  · exact .completed _ _

/-- The end of ENCCH and ENCLS: EINFO beside EncodingError is an index among at most sixteen sources (60_exceptions R123). -/
theorem raisesAsListed_encodeEnd {base bd : BReg} {cnt : Nat} {r : Except Raise BitString}
    (hrow : ErrorKind.encodingError ∈ mayRaise i ∧ ErrorKind.capacityError ∈ mayRaise i)
    (hr : ∀ e, r = .error e → e.kind = .encodingError ∧ e.info < (s.range base cnt).length) :
    RaisesAsListed i s (encodeEnd bd r s) := by
  cases r with
  | error e =>
    obtain ⟨hkind, hinfo⟩ := hr e rfl
    have hrange : (s.range base cnt).length ≤ 16 := by simp [State.range]
    exact .raised e.kind e.info (fun _ => hkind ▸ hrow.1) fun _ => hkind ▸ Nat.le_of_lt_succ (hinfo.trans_le hrange)
  | ok y => exact raisesAsListed_writeWithin hrow.2 _ _ _

end

theorem slice_error {x : BitString} {start stop : Int} {e : Raise} (h : slice x start stop = .error e) :
    e = ⟨.rangeError, 0⟩ := by
  unfold slice at h
  split at h <;> cases h
  rfl

theorem readHeader_error {x : BitString} {o W : Nat} {e : Raise} (h : readHeader x o W = .error e) :
    e = ⟨.headerTruncated, o⟩ := by
  obtain h' | ⟨ps, pe, h', -⟩ := readHeader_cases x o W <;> cases h.symm.trans h'
  rfl

theorem execLoad_raisesAsListed (bd : BReg) (nbits nbytes : Scalar) (s : State) :
    RaisesAsListed (.load bd nbits nbytes) s (execLoad bd nbits nbytes s) := by
  unfold execLoad loadAt
  split
  · exact raisesAsListed_zero (by simp [mayRaise])
  · split
    · exact raisesAsListed_zero (by simp [mayRaise])
    · exact .completed _ _

theorem execSlice_raisesAsListed (bd bs1 : BReg) (start stop : Scalar) (s : State) :
    RaisesAsListed (.slice bd bs1 start stop) s (execSlice bd bs1 start stop s) := by
  unfold execSlice
  split
  · rename_i e he
    rw [slice_error he]
    exact raisesAsListed_zero (by simp [mayRaise])
  · exact .completed _ _

theorem execMkhdr_raisesAsListed (bd : BReg) (length : Scalar) (w : BitVec 4) (s : State) :
    RaisesAsListed (.mkhdr bd length w) s (execMkhdr bd length w s) := by
  unfold execMkhdr
  split
  · split
    · exact raisesAsListed_zero (by simp [mayRaise])
    · exact .completed _ _
  · exact raisesAsListed_illegal ‹_›

/-- The offset given is the EINFO of a header or a payload that is cut off, and it lies inside the source. -/
theorem execRdhdr_raisesAsListed (bs1 : BReg) (offset : Scalar) (w : BitVec 4) (s : State) :
    RaisesAsListed (.rdhdr bs1 offset w) s (execRdhdr bs1 offset w s) := by
  unfold execRdhdr
  split
  · split
    · exact raisesAsListed_zero (by simp [mayRaise])
    · have hoffset : (sext32 offset).toNat ≤ (s.reg bs1).len := by omega
      split
      · rename_i e he
        rw [readHeader_error he]
        exact raisesAsListed_truncated (.inl rfl) (by simp [mayRaise]) hoffset
      · split
        · exact raisesAsListed_truncated (.inr rfl) (by simp [mayRaise]) hoffset
        · exact .completed _ _
  · exact raisesAsListed_illegal ‹_›

theorem execEncch_raisesAsListed (bd bs1 : BReg) (cnt : BitVec 8) (w : BitVec 4) (s : State) :
    RaisesAsListed (.encch bd bs1 cnt w) s (execEncch bd bs1 cnt w s) := by
  unfold execEncch encchAt
  split
  · exact raisesAsListed_encodeEnd (by simp [mayRaise]) fun _ => encodeChunks_error
  · exact raisesAsListed_illegal ‹_›

theorem execEncls_raisesAsListed (bd bs1 : BReg) (cnt : BitVec 8) (w : BitVec 4) (s : State) :
    RaisesAsListed (.encls bd bs1 cnt w) s (execEncls bd bs1 cnt w s) := by
  unfold execEncls enclsAt
  split
  · exact raisesAsListed_encodeEnd (by simp [mayRaise]) fun _ => encodeList_error
  · exact raisesAsListed_illegal ‹_›

theorem execDecch_raisesAsListed (bd bs1 : BReg) (cnt : BitVec 8) (w : BitVec 4) (s : State) :
    RaisesAsListed (.decch bd bs1 cnt w) s (execDecch bd bs1 cnt w s) := by
  unfold execDecch
  split
  · split
    · rename_i e he
      obtain ⟨-, rfl, -⟩ | ⟨-, hkind, hinfo⟩ := decodeChunks_error he
      · exact raisesAsListed_zero (by simp [mayRaise])
      · exact raisesAsListed_truncated hkind (by simp [mayRaise]) hinfo
    · exact .completed _ _
  · exact raisesAsListed_illegal ‹_›

theorem execDecls_raisesAsListed (bd bs1 : BReg) (w : BitVec 4) (s : State) :
    RaisesAsListed (.decls bd bs1 w) s (execDecls bd bs1 w s) := by
  unfold execDecls
  split
  · split
    · rename_i e he
      obtain ⟨hkind, hinfo⟩ := framesFrom_error (Nat.zero_le _) he
      exact raisesAsListed_truncated hkind (by simp [mayRaise]) hinfo.le
    · split
      · exact raisesAsListed_zero (by simp [mayRaise])
      · exact .completed _ _
  · exact raisesAsListed_illegal ‹_›

/-- What every command, legal or not, raises. -/
theorem exec_raisesAsListed (i : Instr) (s : State) : RaisesAsListed i s (exec i s) := by
  cases i with
  | load bd nbits nbytes => exact execLoad_raisesAsListed bd nbits nbytes s
  | store bs1 => exact .completed _ _
  | len bs1 => exact .completed _ _
  | slice bd bs1 start stop => exact execSlice_raisesAsListed bd bs1 start stop s
  | concat bd bs1 bs2 => exact raisesAsListed_writeWithin (by simp [mayRaise]) _ _ _
  | equal bs1 bs2 => exact .completed _ _
  | mkhdr bd length w => exact execMkhdr_raisesAsListed bd length w s
  | rdhdr bs1 offset w => exact execRdhdr_raisesAsListed bs1 offset w s
  | encch bd bs1 cnt w => exact execEncch_raisesAsListed bd bs1 cnt w s
  | decch bd bs1 cnt w => exact execDecch_raisesAsListed bd bs1 cnt w s
  | encls bd bs1 cnt w => exact execEncls_raisesAsListed bd bs1 cnt w s
  | decls bd bs1 w => exact execDecls_raisesAsListed bd bs1 w s

/-- What `RaisesAsListed` says of the state answered. -/
theorem RaisesAsListed.next_cases {i : Instr} {s t : State} (h : RaisesAsListed i s (.next t)) :
    (∃ k info, t = s.answer (.error k) (latch info) [] ∧ (i.wellFormed = true → k ∈ mayRaise i) ∧
      (s.Inv → info ≤ k.einfoMax)) ∨ ∃ out u, t = State.answer u .ok 0 out := by
  generalize ha : (Host.Outcome.next t : Answer) = a at h
  cases h with
  | raised k info hrow hinfo => exact .inl ⟨k, info, raise_inv ha.symm, hrow, hinfo⟩
  | completed out u => exact .inr ⟨out, u, complete_inv ha.symm⟩

/-- Settles O20: an error in STATUS is the one that was raised, which stands in the row of the legal command. -/
theorem errorsOfEachCommand : Obligations.ErrorsOfEachCommand := by
  intro i s t k hlegal h hstatus
  obtain ⟨k', info, rfl, hrow, -⟩ | ⟨out, u, rfl⟩ := (h ▸ exec_raisesAsListed i s).next_cases
  · cases hstatus
    exact hrow hlegal
  · cases hstatus

theorem exec_einfoRule {i : Instr} {s t : State} (hs : s.Inv) (h : exec i s = .next t) : t.EinfoRule := by
  obtain ⟨k, info, rfl, -, hinfo⟩ | ⟨out, u, rfl⟩ := (h ▸ exec_raisesAsListed i s).next_cases
  · exact s.einfoRule_answer_error (hinfo hs) []
  · exact u.einfoRule_answer_ok out

/-- Settles O14: of the six things a step can be, a command and an illegal word write STATUS and EINFO together, asserting reset
makes both 0, and the other three leave both as they are. -/
theorem stepKeepsEinfoRule : Obligations.StepKeepsEinfoRule := by
  intro s t hs hrule h
  obtain ⟨-, e⟩ | e | e | ⟨-, e⟩ | ⟨-, e⟩ | ⟨-, i, e⟩ := step_cases s <;> rw [e] at h
  · cases h; exact hrule -- the block waits
  · cases h; rfl -- reset is asserted
  · cases h; exact hrule -- reset is released
  · cases h; exact hrule -- a command is turned away during reset
  · rw [raise_inv h]; exact s.einfoRule_answer_error (Nat.zero_le _) [] -- the word is illegal
  · exact exec_einfoRule hs h

end Sys2Proof.Machine

/-! Reset (70_reset_and_hazards): the step of each move that runs no command, and that everything stays at its reset value while
reset is asserted. -/

namespace Sys2Proof.Machine

/-! ### The moves that run no command (70_reset_and_hazards R134, R135) -/

section
variable {s : State} {later : List HostMove}

theorem step_of_no_move (h : s.inputs = []) : step s = waitForHost s := by
  simp only [step, h]

theorem step_assertReset {cut : Option Request} (h : s.inputs = .assertReset cut :: later) : step s = enterReset s := by
  simp only [step, h]

theorem step_releaseReset (h : s.inputs = .releaseReset :: later) : step s = leaveReset s := by
  simp only [step, h]

theorem step_command_in_reset {request : Request} (hmove : s.inputs = .command request :: later)
    (hreset : s.resetIn = true) : step s = turnAway s := by
  simp only [step, hmove, hreset, if_true]

end

/-- Settles O10: a command is turned away while reset is asserted, a release writes the reset input only, and with no move at
the port the block waits. -/
theorem movesThatRunNoCommand : Obligations.MovesThatRunNoCommand := by
  refine ⟨fun s request later hmove hreset => ?_, fun s later hmove => ?_, fun _ => step_of_no_move⟩
  · rw [step_command_in_reset hmove hreset]
    exact ⟨_, rfl, rfl, ⟨rfl, rfl⟩, rfl, rfl, rfl, hreset, congrArg List.tail hmove⟩
  · rw [step_releaseReset hmove]
    exact ⟨_, rfl, rfl, ⟨rfl, rfl⟩, rfl, rfl, rfl, rfl, congrArg List.tail hmove⟩

/-! ### While reset is asserted (70_reset_and_hazards R134) -/

theorem State.response_of_no_dout {s : State} (h : s.dout = none) : s.response = none := by
  simp [State.response, h]

theorem enterReset_atReset (s : State) :
    ∃ t, enterReset s = .next t ∧ t.AtReset ∧ t.resetIn = true ∧ t.inputs = s.inputs.tail := by
  obtain ⟨t, ht, hregs, hr0, hr1, hstatus, heinfo, hdout, hreset, hinputs⟩ := enterReset_eq s
  exact ⟨t, ht, ⟨hregs, hr0, hr1, hstatus, heinfo, State.response_of_no_dout hdout⟩, hreset, hinputs⟩

/-- Settles O9: the step asserts reset without a look at the command that was cut off. -/
theorem assertedResetGivesResetState : Obligations.AssertedResetGivesResetState := by
  intro s cut later hmove
  obtain ⟨t, ht, hat, hreset, hinputs⟩ := enterReset_atReset s
  exact ⟨t, (step_assertReset hmove).trans ht, hat, hreset, hinputs.trans (congrArg List.tail hmove)⟩

/-- Turning a command away takes a response from the port and puts none there. -/
theorem State.AtReset.turnAway {s t : State} (hs : s.AtReset) (h : turnAway s = .next t) : t.AtReset := by
  obtain ⟨hregs, hr0, hr1, hstatus, heinfo, -⟩ := hs
  cases h
  exact ⟨hregs, hr0, hr1, hstatus, heinfo, rfl⟩

/-- No command moves the reset input. -/
theorem EndsWell.resetIn {s t : State} {a : Answer} (hend : EndsWell s a) (h : a = .next t) : t.resetIn = s.resetIn := by
  obtain ⟨k, info, rfl⟩ | ⟨u, out, rfl, -, -, hreset, -⟩ := hend
  · rw [raise_inv h, State.resetIn_answer]
  · rw [complete_inv h, State.resetIn_answer, hreset]

/-- Settles O15: of the six things a step can be, asserting reset gives the reset values, waiting and turning a command away keep
them, and after the other three the reset input is released. -/
theorem stepKeepsHeldReset : Obligations.StepKeepsHeldReset := by
  intro s t hs h hreset
  obtain ⟨-, e⟩ | e | e | ⟨hheld, e⟩ | ⟨hfree, e⟩ | ⟨hfree, i, e⟩ := step_cases s <;> rw [e] at h
  · cases h; exact hs hreset -- the block waits
  · -- reset is asserted
    obtain ⟨t', ht', hat, -⟩ := enterReset_atReset s
    cases ht'.symm.trans h
    exact hat
  · cases h; cases hreset -- reset is released
  · exact (hs hheld).turnAway h -- a command is turned away during reset
  · simp [(endsWell_raise s .illegalCommand 0).resetIn h, hfree] at hreset -- the word is illegal
  · simp [(exec_endsWell i s).resetIn h, hfree] at hreset

end Sys2Proof.Machine
